-- ==== Sys2Proof/Word.lean ====
section
/-! DEFINITION. The engine's words, bytes, keys and blocks (spec/00_scope.md section 4, spec/10_state.md R10, R13).
They are data types only; every operation on them is in Sys2Proof/Machine/. -/
namespace Sys2Proof

/-- A word: "an unsigned 32-bit integer, the cipher's native arithmetic unit" (00_scope.md section 5). -/
abbrev Word := BitVec 32

/-- A byte: 8 bits, value 0..255 (00_scope.md section 4). -/
abbrev Byte := BitVec 8

/-- R10: a Key is exactly 4 unsigned 32-bit words, order-significant; `k0` is the word made of salt bytes 0..3. -/
structure Key where
  k0 : Word
  k1 : Word
  k2 : Word
  k3 : Word
deriving DecidableEq, Repr

/-- R13: a Block is an ordered pair of unsigned 32-bit words (Y, Z), `y` the word at the lower offset (R44). -/
structure Block where
  y : Word
  z : Word
deriving DecidableEq, Repr

end Sys2Proof
end

