-- ==== Sys2Proof/Syntax.lean ====
section
/-! DEFINITION. What the host can say to the engine: the twelve commands (spec/30_encoding.md R63), the registers of the
register map (R61), bus transactions (R60), and the inputs of a run (spec/70_reset_and_hazards.md R220, R232). -/
namespace Sys2Proof

/-- R63: the twelve commands, one constructor per row of opcode_table.json. R62: "A command word has no register fields,
no immediates and no mode bits. All operands are implicit". -/
inductive Instr where
  | keysalt
  | keyset
  | encblk
  | decblk
  | pad
  | strip
  | encstr
  | decstr
  | encrypt
  | decrypt
  | selftest
  | reset
deriving DecidableEq, Repr

/-- R61: the 17 registers of the REG space. -/
inductive Reg where
  | cmd
  | status
  | ctrl
  | ilen
  | olen
  | tsec
  | tsub
  | kin0
  | kin1
  | kin2
  | kin3
  | k0
  | k1
  | k2
  | k3
  | y
  | z
deriving DecidableEq, Repr

/-- R40: the address spaces selected by address bits 31:30; select 3 is reserved. -/
inductive Space where
  | reg
  | ibuf
  | obuf
  | reserved
deriving DecidableEq, Repr

/-- R60: the direction of a transaction, `rw` = 0 a read, 1 a write. -/
inductive Dir where
  | read
  | write
deriving DecidableEq, Repr

/-- R60: a bus transaction. The width is a number because R177 gives "any other width" than 1 and 4 a meaning
(IllegalRequest). `wdata` is ignored on a read. -/
structure Txn where
  rw : Dir
  width : Nat
  addr : Word
  wdata : Word
deriving DecidableEq, Repr

/-- What the outside world can do to the engine, one item per step: a bus transaction together with the pair of time words
the environment drives on the ports `tsec`, `tsub` while it runs (R26, R232), or hardware reset (R220). -/
inductive HostInput where
  | bus (t : Txn) (tsec tsub : Word)
  | hardwareReset
deriving DecidableEq, Repr

end Sys2Proof
end

