-- ==== Sys2Proof/WellFormed.lean ====
section
/-! DEFINITION. Which commands and which bus transactions have the form the spec gives them (spec/30_encoding.md R60, R62;
spec/20_memory.md R48). An ill-formed transaction is no fault of the model: it is an IllegalRequest (R176, R177). -/
namespace Sys2Proof

/-- R62: a command has no operands, so every command is well formed. -/
def Instr.wf : Instr → Bool
  | .keysalt => true
  | .keyset => true
  | .encblk => true
  | .decblk => true
  | .pad => true
  | .strip => true
  | .encstr => true
  | .decstr => true
  | .encrypt => true
  | .decrypt => true
  | .selftest => true
  | .reset => true

/-- R60: the width of a transaction is 1 or 4 bytes. -/
def Txn.widthWf (t : Txn) : Bool := t.width == 1 || t.width == 4

/-- R48: a width-4 access must use an offset that is a multiple of 4. -/
def Txn.alignWf (t : Txn) : Bool := t.width != 4 || t.addr.toNat % 4 == 0

/-- R48: "`REG` accepts width 4 only"; REG is the space of addresses below 2^30 (R60). -/
def Txn.regWidthWf (t : Txn) : Bool := decide (2 ^ 30 ≤ t.addr.toNat) || t.width == 4

/-- R40, R60: space select 3 is reserved. -/
def Txn.spaceWf (t : Txn) : Bool := decide (t.addr.toNat < 3 * 2 ^ 30)

/-- The form of a transaction, whatever the state: width, alignment, space. -/
def Txn.wf (t : Txn) : Bool := t.widthWf && t.alignWf && t.regWidthWf && t.spaceWf

end Sys2Proof
end

