-- ==== Sys2Proof/Decode.lean ====
section
/-! DEFINITION. The decoder and encoder of command words (spec/30_encoding.md R62, R63, R66, R67), and the address decoder
of the bus (R60, R61). Both are total; what they reject they reject by name or with `none`. -/
namespace Sys2Proof

/-- R66 (a), (b): why a word written to CMD is no command. -/
inductive DecodeError where
  /-- R66 (b): the `zero` field, bits 31:8, is not 0. -/
  | zeroFieldNotZero
  /-- R66 (a): `op` is 0x00 or in 0x0D..0xFF. -/
  | undefinedOpcode (op : BitVec 8)
deriving DecidableEq, Repr

/-- R62: the `zero` field, bits 31:8. -/
def zeroField (w : Word) : BitVec 24 := w.extractLsb' 8 24

/-- R62: the `op` field, bits 7:0. -/
def opField (w : Word) : BitVec 8 := w.extractLsb' 0 8

/-- R63: the opcode map. -/
def decodeOp (op : BitVec 8) : Except DecodeError Instr :=
  match op.toNat with
  | 0x01 => .ok .keysalt
  | 0x02 => .ok .keyset
  | 0x03 => .ok .encblk
  | 0x04 => .ok .decblk
  | 0x05 => .ok .pad
  | 0x06 => .ok .strip
  | 0x07 => .ok .encstr
  | 0x08 => .ok .decstr
  | 0x09 => .ok .encrypt
  | 0x0A => .ok .decrypt
  | 0x0B => .ok .selftest
  | 0x0C => .ok .reset
  | _ => .error (.undefinedOpcode op)

/-- R62, R63, in R196's order: the `zero` field first, then `op`. -/
def decode (w : Word) : Except DecodeError Instr :=
  if zeroField w ≠ 0 then .error .zeroFieldNotZero else decodeOp (opField w)

/-- R63: the `op` of each command. -/
def opcode : Instr → BitVec 8
  | .keysalt => 0x01#8
  | .keyset => 0x02#8
  | .encblk => 0x03#8
  | .decblk => 0x04#8
  | .pad => 0x05#8
  | .strip => 0x06#8
  | .encstr => 0x07#8
  | .decstr => 0x08#8
  | .encrypt => 0x09#8
  | .decrypt => 0x0A#8
  | .selftest => 0x0B#8
  | .reset => 0x0C#8

/-- R62: the command word, format C: 24 zero bits above the opcode. -/
def encode (i : Instr) : Word := 0#24 ++ opcode i

/-- The command word of the opcode table's row: its `nbits` lowest bits are `w`, the bits above them 0. A command word is
the data value of one write of CMD (R52), so it has no byte layout; a row wider than 32 bits fits no word. -/
def tableWord (nbits w : Nat) : Nat := w % 2 ^ nbits

/-- The command this decoder reads from a row of the opcode table. -/
def decodeTableWord (nbits w : Nat) : Option Instr :=
  if tableWord nbits w < 2 ^ 32 then (decode (BitVec.ofNat 32 (tableWord nbits w))).toOption else none

/-- R60: `addr[31:30]`, the space select. -/
def Txn.space (t : Txn) : Space :=
  match (t.addr.extractLsb' 30 2).toNat with
  | 0 => .reg
  | 1 => .ibuf
  | 2 => .obuf
  | _ => .reserved

/-- R60: `addr[29:0]`, the byte offset in the space. -/
def Txn.offset (t : Txn) : Nat := (t.addr.extractLsb' 0 30).toNat

/-- R61: the register map; `none` for a reserved or misaligned offset (R66 (c), (e)). -/
def regAt (off : Nat) : Option Reg :=
  match off with
  | 0x00 => some .cmd
  | 0x04 => some .status
  | 0x08 => some .ctrl
  | 0x0C => some .ilen
  | 0x10 => some .olen
  | 0x14 => some .tsec
  | 0x18 => some .tsub
  | 0x20 => some .kin0
  | 0x24 => some .kin1
  | 0x28 => some .kin2
  | 0x2C => some .kin3
  | 0x30 => some .k0
  | 0x34 => some .k1
  | 0x38 => some .k2
  | 0x3C => some .k3
  | 0x40 => some .y
  | 0x44 => some .z
  | _ => none

/-- R61: the offset of each register. -/
def Reg.offset : Reg → Nat
  | .cmd => 0x00
  | .status => 0x04
  | .ctrl => 0x08
  | .ilen => 0x0C
  | .olen => 0x10
  | .tsec => 0x14
  | .tsub => 0x18
  | .kin0 => 0x20
  | .kin1 => 0x24
  | .kin2 => 0x28
  | .kin3 => 0x2C
  | .k0 => 0x30
  | .k1 => 0x34
  | .k2 => 0x38
  | .k3 => 0x3C
  | .y => 0x40
  | .z => 0x44

/-- R60: the symbolic addresses `REG+off`, `IBUF+off`, `OBUF+off`. -/
def regAddr (r : Reg) : Word := BitVec.ofNat 32 r.offset

/-- R60: `IBUF+off` = 0x40000000 + off. -/
def ibufAddr (off : Nat) : Word := BitVec.ofNat 32 (0x40000000 + off)

/-- R60: `OBUF+off` = 0x80000000 + off. -/
def obufAddr (off : Nat) : Word := BitVec.ofNat 32 (0x80000000 + off)

end Sys2Proof
end

