-- ==== Sys2Proof/Machine/Arith.lean ====
section
/-! DEFINITION. Bounded Arithmetic (spec/40_arith_codec.md R83 to R88): every value an unsigned 32-bit word, no flag, no
exception. -/
namespace Sys2Proof.Machine

/-- R83: addition modulo 2^32; overflow wraps silently. -/
def add32 (a b : Word) : Word := a + b

/-- R84: `(2^32 − a) mod 2^32`. -/
def neg32 (a : Word) : Word := -a

/-- R85: the logical right shift `floor(v / 2^n)`, 0 for n ≥ 32 (D22). -/
def rshift32 (v : Word) (n : Nat) : Word := v >>> n

/-- R86: the truncating left shift `(v · 2^n) mod 2^32`, 0 for n ≥ 32 (D22). -/
def shl32 (v : Word) (n : Nat) : Word := v <<< n

/-- R87: `a XOR b`, bitwise. -/
def xor32 (a b : Word) : Word := a ^^^ b

/-- R87: `s AND 3` is `s[1:0]`, a value 0..3. -/
def and3 (s : Word) : BitVec 2 := s.extractLsb' 0 2

/-- "XOR it word-wise": first word with first word, second with second, never crossed (R130). -/
def xorBlock (a b : Block) : Block := { y := xor32 a.y b.y, z := xor32 a.z b.z }

end Sys2Proof.Machine
end

