-- ==== Sys2Proof/Machine/Cipher.lean ====
section
/-! DEFINITION. The block cipher (spec/42_block.md R110 to R115): 32 Feistel rounds; the round index is the count of the
iteration and `sum` a field of the round state (spec/10_state.md R29, R30). -/
namespace Sys2Proof.Machine

/-- R110: "runs exactly 32 rounds". -/
def roundCount : Nat := 32

/-- R110: DELTA. -/
def delta : Word := 0x9E3779B9#32

/-- R110: SUM_END, 32 × DELTA mod 2^32. -/
def sumEnd : Word := 0xC6EF3720#32

/-- R110: NEG_DELTA = `neg32(DELTA)`. -/
def negDelta : Word := neg32 delta

/-- R30: the transient values of a running block transform. -/
structure RoundState where
  sum : Word
  y : Word
  z : Word
deriving DecidableEq, Repr

/-- R112: the key word `K[i]`; the index is two bits, so it is never out of range. -/
def keyAt (k : Key) (i : BitVec 2) : Word :=
  if i = 0#2 then k.k0 else if i = 1#2 then k.k1 else if i = 2#2 then k.k2 else k.k3

/-- R112: the index of the Y-update, `sum AND 3`. -/
def yIndex (sum : Word) : BitVec 2 := and3 sum

/-- R112: the index of the Z-update, `rshift32(sum, 11) AND 3`. -/
def zIndex (sum : Word) : BitVec 2 := and3 (rshift32 sum 11)

/-- R111: the mixing function `F(v, s, k)`. -/
def mixF (v s k : Word) : Word := xor32 (add32 (xor32 (shl32 v 4) (rshift32 v 5)) v) (add32 s k)

/-- R113: one round of encryption: the Y-update reads `z` and the old `sum`, then `sum` advances, then the Z-update
reads the new `y` and the new `sum`. -/
def encRound (k : Key) (r : RoundState) : RoundState :=
  let y := add32 r.y (mixF r.z r.sum (keyAt k (yIndex r.sum)))
  let sum := add32 r.sum delta
  let z := add32 r.z (mixF y sum (keyAt k (zIndex sum)))
  { sum := sum, y := y, z := z }

/-- R115: one round of decryption: undo the Z-update, lower `sum`, undo the Y-update with the restored `z`. -/
def decRound (k : Key) (r : RoundState) : RoundState :=
  let z := add32 r.z (neg32 (mixF r.y r.sum (keyAt k (zIndex r.sum))))
  let sum := add32 r.sum negDelta
  let y := add32 r.y (neg32 (mixF z sum (keyAt k (yIndex sum))))
  { sum := sum, y := y, z := z }

/-- `n` rounds of `f`, one after the other. -/
def rounds (f : RoundState → RoundState) : Nat → RoundState → RoundState
  | 0, r => r
  | n + 1, r => rounds f n (f r)

/-- The block half of a round state. -/
def RoundState.block (r : RoundState) : Block := { y := r.y, z := r.z }

/-- R113: `sum` starts at 0 and 32 rounds run. -/
def encryptBlock (k : Key) (b : Block) : Block :=
  (rounds (encRound k) roundCount { sum := 0, y := b.y, z := b.z }).block

/-- R115: `sum` starts at SUM_END and 32 inverse rounds run. -/
def decryptBlock (k : Key) (b : Block) : Block :=
  (rounds (decRound k) roundCount { sum := sumEnd, y := b.y, z := b.z }).block

end Sys2Proof.Machine
end

