-- ==== Sys2Proof/Config.lean ====
section
/-! DEFINITION. The open parameters of the engine and the free values (spec/00_scope.md R5; spec/92_eei_decisions.md
D10, D17; spec/93_implementation_defined.md U1, U3, U4). "The model takes it as an argument": a Config is plain data
that State carries and no step changes, so a claim about every state is a claim about every MAXLEN and every WS. -/
namespace Sys2Proof

/-- The parameters R5 leaves open. Every value of this type is a legal choice and every legal choice is a value of it:
the legality is in the types. -/
structure Config where
  /-- MAXLEN is `8 * (blocksLessOne + 1)`: a multiple of 8 with 8 ≤ MAXLEN ≤ 2^30 − 8 (R5, D10), and
  134217727 is 2^27 − 1. -/
  blocksLessOne : Fin 134217727
  /-- The bytes of WS besides 0x20, which every instance of WS contains (D17, U4). -/
  extraWs : List Byte
deriving DecidableEq, Repr

/-- R5: PAD_BYTE, the ASCII space. -/
def padByte : Byte := 0x20#8

/-- R5, D10: MAXLEN, the capacity of IBUF in bytes. -/
def Config.maxlen (c : Config) : Nat := 8 * (c.blocksLessOne.val + 1)

/-- R152, D17: WS, the set of byte values STRIP removes; 0x20 is always a member. -/
def Config.ws (c : Config) : List Byte := padByte :: c.extraWs

/-- FREE VALUE (log 1): which MAXLEN an engine was built with. No body: nothing can be proved of it but R5's bounds. -/
opaque Config.freeBlocksLessOne : Fin 134217727

/-- FREE VALUE (log 6): what the n-th host read of an unwritten buffer byte returns; R222: "a host read of such a
byte returns an unspecified value, not necessarily the same on two reads". -/
opaque Config.freeByte : Nat → Byte

/-- The configuration `State.reset` carries: some MAXLEN (log 1, free) and R152's decided WS = {0x20} (log 2). -/
def Config.installed : Config := { blocksLessOne := Config.freeBlocksLessOne, extraWs := [] }

end Sys2Proof
end

