-- ==== Sys2Proof/Machine/State.lean ====
section
/-! DEFINITION. The state of the engine, the reasons a step stops, and the state after reset (spec/10_state.md R10 to R32).
STATE IS PLAIN DATA. -/
namespace Sys2Proof.Machine

/-- The contents of a buffer: (offset, byte) pairs at strictly rising offsets. An offset that is not listed holds no value
(R222: "Buffer bytes after reset hold no value"). -/
abbrev Memory := List Host.Cell

/-- Why the machine stops with a fault. None: every request ends in a next state ("Nothing in the engine is **stuck**",
93_implementation_defined.md; R232: illegal requests "are faults with defined effect"; that effect is STATUS.ERR). -/
inductive Fault where
deriving DecidableEq, Repr

/-- Why a step has no defined result. -/
inductive Refusal where
  /-- Raised by an arm of exec whose instruction has no meaning yet; no arm raises it. Safe. -/
  | notModelled (mnemonic : String)
  /-- Raised by KEYSALT, ENCSTR, DECSTR, ENCRYPT and DECRYPT when an IBUF byte they read has not been written since reset:
  R222, "has no defined result: the model must not give it one (treat as `refuse`...)". Safe. -/
  | unwrittenInput
  /-- Raised by STRIP and DECRYPT when an OBUF byte the stripping loop reads holds no value. R222 says that no run comes
  there (every byte below OLEN was written by the command that set OLEN); the model's invariant `State.Inv` rules it out.
  Safe. -/
  | unwrittenOutput
deriving DecidableEq, Repr

/-- The whole state. The first thirteen fields are the spec's (10_state.md section 1; `tsec`, `tsub` are the images of the
input ports), the last four the model's own. CMD stores nothing (R21) and so has no field. -/
structure State where
  /-- R10, R11: the key registers `K[0..3]`. -/
  k : Key
  /-- R12: the staging registers `KIN[0..3]`. -/
  kin : Key
  /-- R13: block register `Y`. -/
  y : Word
  /-- R13: block register `Z`. -/
  z : Word
  /-- R22: STATUS; `ERR` is bits 1:0, `STDONE` bit 2, `STPASS` bit 3 (accessors in Machine/Flags.lean). -/
  status : Word
  /-- R23: CTRL; `CBC` is bit 0. -/
  ctrl : Word
  /-- R24: the number of valid bytes in IBUF. -/
  ilen : Word
  /-- R25: the number of valid bytes in OBUF. -/
  olen : Word
  /-- R26: what the input port `tsec` carries during the transaction in progress. -/
  tsec : Word
  /-- R26: what the input port `tsub` carries during the transaction in progress. -/
  tsub : Word
  /-- R27: the input buffer. -/
  ibuf : Memory
  /-- R28: the output buffer. -/
  obuf : Memory
  /-- R5: MAXLEN and WS, fixed for the machine; no step changes them (log 1, log 2). -/
  cfg : Config
  /-- The model's own: the inputs not taken yet, oldest first (R50, R232; log 5). -/
  pending : List HostInput
  /-- The model's own: the read data of the read transactions so far, oldest first (R60, R232; log 5). -/
  observed : List Word
  /-- The model's own: how many free bytes host reads have drawn (R222; log 6). -/
  draws : Nat
deriving DecidableEq, Repr

/-- The all-zero key, "what FE gives an engine built with no salt" (R32). -/
def zeroKey : Key := { k0 := 0, k1 := 0, k2 := 0, k3 := 0 }

/-- R32: the state after reset. The spec's registers and buffers stand at R32's values; `tsec`, `tsub`, `cfg`, `pending`,
`observed` and `draws` are no state of the engine and have the values logs 1, 2, 3, 5 and 6 name (DESIGN CHOICE). -/
def State.reset : State :=
  { k := zeroKey
    kin := zeroKey
    y := 0
    z := 0
    status := 0
    ctrl := 1
    ilen := 0
    olen := 0
    tsec := 0
    tsub := 0
    ibuf := []
    obuf := []
    cfg := Config.installed
    pending := []
    observed := []
    draws := 0 }

end Sys2Proof.Machine
end

