-- ==== Sys2Proof/Machine/Flags.lean ====
section
/-! DEFINITION. The fields of STATUS and CTRL (spec/10_state.md R22, R23) and the writes the commands make to them
(spec/60_exceptions.md R190). The engine has no arithmetic flags (spec/40_arith_codec.md R88). -/
namespace Sys2Proof.Machine

/-- R190: the codes of STATUS.ERR. -/
inductive ErrCode where
  | ok
  | malformedInput
  | truncatedInput
  | illegalRequest
deriving DecidableEq, Repr

/-- R190: the numbers of the codes. -/
def ErrCode.code : ErrCode → BitVec 2
  | .ok => 0#2
  | .malformedInput => 1#2
  | .truncatedInput => 2#2
  | .illegalRequest => 3#2

/-- R22: `STATUS.ERR`, bits 1:0. -/
def State.err (s : State) : BitVec 2 := s.status.extractLsb' 0 2

/-- R22: `STATUS.STDONE`, bit 2. -/
def State.stdone (s : State) : Bool := s.status.getLsbD 2

/-- R22: `STATUS.STPASS`, bit 3. -/
def State.stpass (s : State) : Bool := s.status.getLsbD 3

/-- R22: the reserved bits 31:4 of STATUS. -/
def State.statusReserved (s : State) : BitVec 28 := s.status.extractLsb' 4 28

/-- R23: `CTRL.CBC`, bit 0. -/
def State.cbc (s : State) : Bool := s.ctrl.getLsbD 0

/-- R23: the reserved bits 31:1 of CTRL. -/
def State.ctrlReserved (s : State) : BitVec 31 := s.ctrl.extractLsb' 1 31

/-- STATUS with `ERR` replaced and every other bit kept. -/
def statusWithErr (w : Word) (e : ErrCode) : Word := w.extractLsb' 2 30 ++ e.code

/-- R171: STATUS after SELFTEST: `STPASS` the result, `STDONE` 1, `ERR` 0, the other bits kept. -/
def statusAfterSelftest (w : Word) (pass : Bool) : Word := w.extractLsb' 4 28 ++ BitVec.ofBool pass ++ 1#1 ++ 0#2

/-- R23, R175: the value CTRL takes when `v` is written: `CBC` from `v[0]`, `v[31:1]` ignored. -/
def ctrlWritten (v : Word) : Word := v &&& 1#32

/-- R174, R22: what a read of STATUS returns: the four fields, reserved bits 0. -/
def statusRead (w : Word) : Word := w &&& 0xF#32

/-- R174, R23: what a read of CTRL returns: `CBC`, reserved bits 0. -/
def ctrlRead (w : Word) : Word := w &&& 1#32

end Sys2Proof.Machine
end

