-- ==== Sys2Proof/Machine/Ops.lean ====
section
/-! DEFINITION. The named operations over the buffers and registers (spec/20_memory.md R42; spec/10_state.md), and the
engine's exceptions: raising an error (spec/60_exceptions.md R194), refusing an illegal request (R195), and the return to
the reset state (R220). There is no return from an error: "There is no return instruction and nothing to restore" (R198). -/
namespace Sys2Proof.Machine

/-- What an offset that is not listed reads as: no value (R222; log 4). -/
def Memory.unlisted : Option Byte := none

/-- The byte at offset `a`, or no value. -/
def Memory.read : Memory → Nat → Option Byte
  | [], _ => Memory.unlisted
  | (a', b') :: m, a => if a = a' then some b' else Memory.read m a

/-- `B[a] <- b`, keeping the offsets rising. No byte equals what an unlisted offset reads as (that is no value), so a write
removes nothing. -/
def Memory.write : Memory → Nat → Byte → Memory
  | [], a, b => [(a, b)]
  | (a', b') :: m, a, b =>
    if a < a' then (a, b) :: (a', b') :: m
    else if a = a' then (a, b) :: m
    else (a', b') :: Memory.write m a b

/-- R42: `MemRead(B, a, n)`, the n bytes from offset `a`, lower offset first; `none` when one of them holds no value. -/
def Memory.readBytes (m : Memory) : Nat → Nat → Option (List Byte)
  | _, 0 => some []
  | a, n + 1 =>
    match m.read a, Memory.readBytes m (a + 1) n with
    | some b, some bs => some (b :: bs)
    | _, _ => none

/-- R42: `MemWrite(B, a, n, v)`, so that `B[a+k] = v[k]`. -/
def Memory.writeBytes : Memory → Nat → List Byte → Memory
  | m, _, [] => m
  | m, a, b :: bs => Memory.writeBytes (m.write a b) (a + 1) bs

/-- The canonical form: offsets strictly rising. (No entry can equal what an unlisted offset reads as.) -/
abbrev Memory.wf (m : Memory) : Prop := m.Pairwise (fun c d => c.1 < d.1)

/-- `STATUS <- w`. -/
def State.setStatus (s : State) (w : Word) : State := { s with status := w }

/-- `STATUS.ERR <- e`. -/
def State.setErr (s : State) (e : ErrCode) : State := { s with status := statusWithErr s.status e }

/-- `K[0..3] <- k`: all four words in one step (R11). -/
def State.setKey (s : State) (k : Key) : State := { s with k := k }

/-- `(Y, Z) <- b`. -/
def State.setBlock (s : State) (b : Block) : State := { s with y := b.y, z := b.z }

/-- Appends bytes to the input: they stand in IBUF from offset ILEN on and ILEN grows by their number (R151). -/
def State.extendInput (s : State) (bs : List Byte) : State :=
  { s with
    ibuf := s.ibuf.writeBytes s.ilen.toNat bs
    ilen := BitVec.ofNat 32 (s.ilen.toNat + bs.length) }

/-- `MemWrite(OBUF, 0, len(bs), bs)` and `OLEN <- len(bs)` (R132, R134). -/
def State.setOutput (s : State) (bs : List Byte) : State :=
  { s with obuf := s.obuf.writeBytes 0 bs, olen := BitVec.ofNat 32 bs.length }

/-- `OLEN <- n`. -/
def State.setOlen (s : State) (n : Nat) : State := { s with olen := BitVec.ofNat 32 n }

/-- R194: `raise E`: `STATUS.ERR <- code(E)`, `OLEN <- 0`, and nothing else. -/
def State.raise (s : State) (e : ErrCode) : State := (s.setOlen 0).setErr e

/-- R195: IllegalRequest: `STATUS.ERR <- 3` and nothing else. -/
def State.illegal (s : State) : State := s.setErr .illegalRequest

/-- R32, R220: every register and buffer of the engine returns to its reset value; what is no state of the engine (the ports,
the parameters, the inputs still to come, what was observed, the draws) is not touched. -/
def State.resetEngine (s : State) : State :=
  { State.reset with
    tsec := s.tsec
    tsub := s.tsub
    cfg := s.cfg
    pending := s.pending
    observed := s.observed
    draws := s.draws }

/-- One operation after another inside one atomic command (R155, R156): the second runs on the state the first leaves. -/
def andThen (o : Host.Outcome State Fault Refusal) (f : State → Host.Outcome State Fault Refusal) :
    Host.Outcome State Fault Refusal :=
  match o with
  | .next s => f s
  | .fault r => .fault r
  | .refused r => .refused r

end Sys2Proof.Machine
end

