-- ==== Sys2Proof/Machine/Operands.lean ====
section
/-! DEFINITION. The implicit operands of the commands (spec/30_encoding.md R64). A command word names none (R62). -/
namespace Sys2Proof.Machine

/-- R102, R222: KEYSALT reads only the first min(ILEN, 16) bytes of IBUF. -/
def saltOperand (s : State) : Option (List Byte) := s.ibuf.readBytes 0 (min s.ilen.toNat 16)

/-- R24: `IBUF[0..ILEN−1]`, the input byte sequence. -/
def inputOperand (s : State) : Option (List Byte) := s.ibuf.readBytes 0 s.ilen.toNat

/-- R13: the block in `Y`, `Z`. -/
def blockOperand (s : State) : Block := { y := s.y, z := s.z }

/-- R131: the IV sampled from the ports: the first word is `tsec`, the second `tsub`, unmodified. -/
def ivOperand (s : State) : Block := { y := s.tsec, z := s.tsub }

end Sys2Proof.Machine
end

