-- ==== Sys2Proof/Machine/BlockCommands.lean ====
section
/-! DEFINITION. ENCBLK and DECBLK (spec/42_block.md R114, R116): they never chain and use neither buffer. -/
namespace Sys2Proof.Machine

/-- R114: `(Y, Z) <- encryptBlock(K, (Y, Z))`, `ERR <- 0`. -/
def execEncblk (s : State) : Host.Outcome State Fault Refusal :=
  .next ((s.setBlock (encryptBlock s.k (blockOperand s))).setErr .ok)

/-- R116: `(Y, Z) <- decryptBlock(K, (Y, Z))`, `ERR <- 0`. -/
def execDecblk (s : State) : Host.Outcome State Fault Refusal :=
  .next ((s.setBlock (decryptBlock s.k (blockOperand s))).setErr .ok)

end Sys2Proof.Machine
end

