-- ==== Sys2Proof/Machine/Codec.lean ====
section
/-! DEFINITION. The Word Codec (spec/40_arith_codec.md R80 to R82) and the block layout of byte sequences
(spec/20_memory.md R43 to R46): big-endian, and this cannot be switched. -/
namespace Sys2Proof.Machine

/-- R80: the word whose most significant byte is `b0`, the byte at the lowest offset. -/
def be32 (b0 b1 b2 b3 : Byte) : Word := b0 ++ b1 ++ b2 ++ b3

/-- R81: the byte `w[lo+7:lo]`. -/
def byteOf (w : Word) (lo : Nat) : Byte := w.extractLsb' lo 8

/-- R81: the 4 bytes of a word, most significant first. -/
def wordToBytes (w : Word) : List Byte := [byteOf w 24, byteOf w 16, byteOf w 8, byteOf w 0]

/-- R82: the words of a byte sequence, four bytes each, in order; a rest of fewer than four bytes gives no word. -/
def wordsOf : List Byte → List Word
  | b0 :: b1 :: b2 :: b3 :: rest => be32 b0 b1 b2 b3 :: wordsOf rest
  | _ => []

/-- R82: `bytesToWords`; `none` is its failure with MalformedInput, a length that is no multiple of 4. -/
def bytesToWords (s : List Byte) : Option (List Word) :=
  if s.length % 4 ≠ 0 then none else some (wordsOf s)

/-- R82: the inverse on a sequence of words. -/
def wordsToBytes (ws : List Word) : List Byte := ws.flatMap wordToBytes

/-- R44: two words in order are a block. -/
def pairWords : List Word → List Block
  | y :: z :: rest => { y := y, z := z } :: pairWords rest
  | _ => []

/-- R44: the blocks of a byte sequence, 8 bytes each, in order. -/
def blocksOf (s : List Byte) : List Block := pairWords (wordsOf s)

/-- R44, R81: the 8 bytes of a block. -/
def blockToBytes (b : Block) : List Byte := wordToBytes b.y ++ wordToBytes b.z

/-- R45: "its blocks in order with no gaps, header or trailer". -/
def blocksToBytes (bs : List Block) : List Byte := bs.flatMap blockToBytes

end Sys2Proof.Machine
end

