-- ==== Sys2Proof/Machine/KeySchedule.lean ====
section
/-! DEFINITION. The key schedule (spec/41_key.md R100, R101). -/
namespace Sys2Proof.Machine

/-- R100: key byte `kb[i] = salt[i mod n]`; used for a non-empty salt and i in 0..15, so the default is never taken. -/
def keyByte (salt : List Byte) (i : Nat) : Byte := salt.getD (i % salt.length) 0

/-- R100, R46: key word j is `be32(kb[4j], kb[4j+1], kb[4j+2], kb[4j+3])`. -/
def keyWord (salt : List Byte) (j : Nat) : Word :=
  be32 (keyByte salt (4 * j)) (keyByte salt (4 * j + 1)) (keyByte salt (4 * j + 2)) (keyByte salt (4 * j + 3))

/-- R100: the empty salt gives the all-zero key; any other is repeated or cut to 16 bytes and split into four words. -/
def deriveKey (salt : List Byte) : Key :=
  if salt.isEmpty then { k0 := 0, k1 := 0, k2 := 0, k3 := 0 }
  else { k0 := keyWord salt 0, k1 := keyWord salt 1, k2 := keyWord salt 2, k3 := keyWord salt 3 }

end Sys2Proof.Machine
end

