-- ==== Sys2Proof/Machine/KeyCommands.lean ====
section
/-! DEFINITION. KEYSALT and KEYSET (spec/41_key.md R102, R103). -/
namespace Sys2Proof.Machine

/-- R102: `K <- deriveKey(IBUF[0..ILEN−1])`, `ERR <- 0`. R222: refused when a salt byte it reads holds no value. -/
def execKeysalt (s : State) : Host.Outcome State Fault Refusal :=
  match saltOperand s with
  | none => .refused .unwrittenInput
  | some salt => .next ((s.setKey (deriveKey salt)).setErr .ok)

/-- R103: `K <- KIN`, all four in one step, `ERR <- 0`. -/
def execKeyset (s : State) : Host.Outcome State Fault Refusal :=
  .next ((s.setKey s.kin).setErr .ok)

end Sys2Proof.Machine
end

