-- ==== Sys2Proof/Machine/Padding.lean ====
section
/-! DEFINITION. Padding and stripping of byte sequences (spec/44_padding.md R150, R152). -/
namespace Sys2Proof.Machine

/-- R150: how many pad bytes a sequence of length `n` gets: between 0 and 7. -/
def padCount (n : Nat) : Nat := (8 - n % 8) % 8

/-- R150: pad with 0x20 to the least multiple of 8 that is not less than the length. -/
def padBytes (p : List Byte) : List Byte := p ++ List.replicate (padCount p.length) padByte

/-- R152: is the byte one that stripping removes? -/
def inWs (ws : List Byte) (b : Byte) : Bool := ws.contains b

/-- R152: the longest prefix whose last byte is not in WS. -/
def stripBytes (ws : List Byte) (p : List Byte) : List Byte := (p.reverse.dropWhile (inWs ws)).reverse

end Sys2Proof.Machine
end

