-- ==== Sys2Proof/Machine/Chaining.lean ====
section
/-! DEFINITION. The chaining mode (spec/43_stream.md R130, R133): pure functions of the key, the bytes, the mode bit and the
IV. The block index is the position in the list (spec/10_state.md R29). -/
namespace Sys2Proof.Machine

/-- R130, chained: XOR with the previous OUTPUT block `c`, then encrypt. -/
def chainEncrypt (k : Key) (c : Block) : List Block → List Block
  | [] => []
  | p :: ps => encryptBlock k (xorBlock p c) :: chainEncrypt k (encryptBlock k (xorBlock p c)) ps

/-- R133, chained: decrypt, then XOR with the RAW ciphertext block before it, `v`. -/
def chainDecrypt (k : Key) (v : Block) : List Block → List Block
  | [] => []
  | c :: cs => xorBlock (decryptBlock k c) v :: chainDecrypt k c cs

/-- R130: the blocks of the stream; in chained mode the IV block is emitted first, as it is. -/
def encryptBlocks (k : Key) (cbc : Bool) (iv : Block) (ps : List Block) : List Block :=
  if cbc then iv :: chainEncrypt k iv ps else ps.map (encryptBlock k)

/-- R133: the plaintext blocks; in chained mode block 0 is the IV and gives no output. -/
def decryptBlocks (k : Key) (cbc : Bool) (cs : List Block) : List Block :=
  if cbc then
    match cs with
    | [] => []
    | iv :: rest => chainDecrypt k iv rest
  else cs.map (decryptBlock k)

/-- R130: `encryptStream(K, P, cbc, iv)` on bytes. -/
def encryptStream (k : Key) (p : List Byte) (cbc : Bool) (iv : Block) : List Byte :=
  blocksToBytes (encryptBlocks k cbc iv (blocksOf p))

/-- R133: `decryptStream(K, C, cbc)` on bytes. -/
def decryptStream (k : Key) (c : List Byte) (cbc : Bool) : List Byte :=
  blocksToBytes (decryptBlocks k cbc (blocksOf c))

end Sys2Proof.Machine
end

