-- ==== Sys2Proof/Machine/StreamCommands.lean ====
section
/-! DEFINITION. ENCSTR and DECSTR (spec/43_stream.md R132, R134), as operations that ENCRYPT and DECRYPT share. -/
namespace Sys2Proof.Machine

/-- R132: the one check of ENCSTR, on ILEN alone, before the first block is read (R135). -/
def encryptCheck (s : State) : Option ErrCode :=
  if s.ilen.toNat % 8 ≠ 0 then some .malformedInput else none

/-- R134, R196: the three checks of DECSTR in their order, on ILEN and CTRL.CBC alone, before the first block is read
(R135). -/
def decryptCheck (s : State) : Option ErrCode :=
  if s.ilen.toNat % 4 ≠ 0 then some .malformedInput
  else if s.ilen.toNat % 8 ≠ 0 then some .truncatedInput
  else if s.cbc && decide (s.ilen.toNat / 8 < 2) then some .truncatedInput
  else none

/-- R132 after its check: the stream goes to OBUF, its length to OLEN. -/
def encryptInput (s : State) : Host.Outcome State Fault Refusal :=
  match inputOperand s with
  | none => .refused .unwrittenInput
  | some p => .next ((s.setOutput (encryptStream s.k p s.cbc (ivOperand s))).setErr .ok)

/-- R134 after its checks: the plaintext goes to OBUF, its length to OLEN. -/
def decryptInput (s : State) : Host.Outcome State Fault Refusal :=
  match inputOperand s with
  | none => .refused .unwrittenInput
  | some c => .next ((s.setOutput (decryptStream s.k c s.cbc)).setErr .ok)

/-- R132: the whole of ENCSTR. -/
def encstrOp (s : State) : Host.Outcome State Fault Refusal :=
  match encryptCheck s with
  | some e => .next (s.raise e)
  | none => encryptInput s

/-- R132: `ENCSTR`. -/
def execEncstr (s : State) : Host.Outcome State Fault Refusal := encstrOp s

/-- R134: `DECSTR`. -/
def execDecstr (s : State) : Host.Outcome State Fault Refusal :=
  match decryptCheck s with
  | some e => .next (s.raise e)
  | none => decryptInput s

end Sys2Proof.Machine
end

