-- ==== Sys2Proof/Machine/MessageCommands.lean ====
section
/-! DEFINITION. PAD, STRIP, ENCRYPT and DECRYPT (spec/44_padding.md R151, R153, R155, R156). -/
namespace Sys2Proof.Machine

/-- R151: the pad bytes go to IBUF from ILEN on and ILEN rises to the next multiple of 8. -/
def padOp (s : State) : State :=
  (s.extendInput (List.replicate (padCount s.ilen.toNat) padByte)).setErr .ok

/-- R153: the stripping loop: lower OLEN while it is not 0 and the byte below it is in WS. It answers the new OLEN, or `none`
when a byte it reads holds no value. -/
def stripLoop (ws : List Byte) (m : Memory) : Nat → Option Nat
  | 0 => some 0
  | n + 1 =>
    match m.read n with
    | none => none
    | some b => if inWs ws b then stripLoop ws m n else some (n + 1)

/-- R153: the whole of STRIP; no byte of OBUF is written. -/
def stripOp (s : State) : Host.Outcome State Fault Refusal :=
  match stripLoop s.cfg.ws s.obuf s.olen.toNat with
  | none => .refused .unwrittenOutput
  | some n => .next ((s.setOlen n).setErr .ok)

/-- R151: `PAD`. -/
def execPad (s : State) : Host.Outcome State Fault Refusal := .next (padOp s)

/-- R153: `STRIP`. -/
def execStrip (s : State) : Host.Outcome State Fault Refusal := stripOp s

/-- R155: `ENCRYPT`, "do PAD, do ENCSTR" as one atomic command. -/
def execEncrypt (s : State) : Host.Outcome State Fault Refusal := encstrOp (padOp s)

/-- R156: `DECRYPT`, "do DECSTR, may raise, then the command ends with OLEN = 0; do STRIP only when DECSTR succeeded". -/
def execDecrypt (s : State) : Host.Outcome State Fault Refusal :=
  match decryptCheck s with
  | some e => .next (s.raise e)
  | none => andThen (decryptInput s) stripOp

end Sys2Proof.Machine
end

