-- ==== Sys2Proof/Machine/SystemCommands.lean ====
section
/-! DEFINITION. SELFTEST and RESET (spec/45_system.md R171, R172). -/
namespace Sys2Proof.Machine

/-- R171: key and block of the first published vector, and the ciphertext it must give. -/
def selftestA : Bool :=
  encryptBlock { k0 := 0, k1 := 0, k2 := 0, k3 := 0 } { y := 0x41414141#32, z := 0x41414141#32 }
    == { y := 0xED23375A#32, z := 0x821A8C2D#32 }

/-- R171: key and block of the second published vector, and the ciphertext it must give. -/
def selftestB : Bool :=
  encryptBlock { k0 := 0x00010203#32, k1 := 0x04050607#32, k2 := 0x08090A0B#32, k3 := 0x0C0D0E0F#32 }
      { y := 0x41424344#32, z := 0x45464748#32 }
    == { y := 0x497DF3D0#32, z := 0x72612CB5#32 }

/-- R171: `STPASS <- both match`, `STDONE <- 1`, `ERR <- 0`; reads no register and no buffer. -/
def execSelftest (s : State) : Host.Outcome State Fault Refusal :=
  .next (s.setStatus (statusAfterSelftest s.status (selftestA && selftestB)))

/-- R172: "all state <- reset values of 10_state.md rule R32". -/
def execReset (s : State) : Host.Outcome State Fault Refusal := .next s.resetEngine

end Sys2Proof.Machine
end

