-- ==== Sys2Proof/Machine/Dispatch.lean ====
section
/-! DEFINITION. One arm per command of spec/30_encoding.md R63. -/
namespace Sys2Proof.Machine

/-- R21, R63: a command runs to completion (R50). -/
def exec (i : Instr) (s : State) : Host.Outcome State Fault Refusal :=
  match i with
  | .keysalt => Sys2Proof.Machine.execKeysalt s
  | .keyset => Sys2Proof.Machine.execKeyset s
  | .encblk => Sys2Proof.Machine.execEncblk s
  | .decblk => Sys2Proof.Machine.execDecblk s
  | .pad => Sys2Proof.Machine.execPad s
  | .strip => Sys2Proof.Machine.execStrip s
  | .encstr => Sys2Proof.Machine.execEncstr s
  | .decstr => Sys2Proof.Machine.execDecstr s
  | .encrypt => Sys2Proof.Machine.execEncrypt s
  | .decrypt => Sys2Proof.Machine.execDecrypt s
  | .selftest => Sys2Proof.Machine.execSelftest s
  | .reset => Sys2Proof.Machine.execReset s

end Sys2Proof.Machine
end

