-- ==== Sys2Proof/Machine/Bus.lean ====
section
/-! DEFINITION. Host access (spec/45_system.md R174 to R177; spec/20_memory.md R40 to R50; spec/30_encoding.md R60, R61, R66):
what one bus transaction does and the read data it returns. -/
namespace Sys2Proof.Machine

/-- The state after a transaction and its `rdata` (R60). -/
abbrev Reply := State × Word

/-- R176, R177, R195: an illegal access: `ERR <- 3`, nothing else, read data 0. -/
def illegalReply (s : State) : Reply := (s.illegal, 0)

/-- R174, R61: what a read of a register returns; `none` for the write-only CMD (R176). -/
def readReg (s : State) : Reg → Option Word
  | .cmd => none
  | .status => some (statusRead s.status)
  | .ctrl => some (ctrlRead s.ctrl)
  | .ilen => some s.ilen
  | .olen => some s.olen
  | .tsec => some s.tsec
  | .tsub => some s.tsub
  | .kin0 => some s.kin.k0
  | .kin1 => some s.kin.k1
  | .kin2 => some s.kin.k2
  | .kin3 => some s.kin.k3
  | .k0 => some s.k.k0
  | .k1 => some s.k.k1
  | .k2 => some s.k.k2
  | .k3 => some s.k.k3
  | .y => some s.y
  | .z => some s.z

/-- R175: `ILEN <- v` when `v <= MAXLEN`; else the write is illegal (R176). -/
def writeIlen (s : State) (v : Word) : Option State :=
  if v.toNat ≤ s.cfg.maxlen then some { s with ilen := v } else none

/-- R175, R61: what a write of a register other than CMD does; `none` when it is illegal (R176). -/
def writeReg (s : State) (v : Word) : Reg → Option State
  | .cmd => none
  | .status => none
  | .ctrl => some { s with ctrl := ctrlWritten v }
  | .ilen => writeIlen s v
  | .olen => none
  | .tsec => none
  | .tsub => none
  | .kin0 => some { s with kin := { s.kin with k0 := v } }
  | .kin1 => some { s with kin := { s.kin with k1 := v } }
  | .kin2 => some { s with kin := { s.kin with k2 := v } }
  | .kin3 => some { s with kin := { s.kin with k3 := v } }
  | .k0 => none
  | .k1 => none
  | .k2 => none
  | .k3 => none
  | .y => some { s with y := v }
  | .z => some { s with z := v }

/-- R21, R66: a word written to CMD is decoded and the command runs; an illegal word is an IllegalRequest. -/
def runCommand (w : Word) (s : State) : Host.Outcome State Fault Refusal :=
  match decode w with
  | .ok i => exec i s
  | .error _ => .next s.illegal

/-- A transaction without read data: `rdata` is 0 (R60: "0 on a write"). -/
def withoutData (o : Host.Outcome State Fault Refusal) : Host.Outcome Reply Fault Refusal :=
  match o with
  | .next s => .next (s, 0)
  | .fault r => .fault r
  | .refused r => .refused r

/-- R174, R176: a read of the register at an offset. -/
def readRegister (s : State) (r : Reg) : Reply :=
  match readReg s r with
  | some v => (s, v)
  | none => illegalReply s

/-- R175, R176: a write of a register other than CMD. -/
def writeRegister (s : State) (r : Reg) (v : Word) : Reply :=
  match writeReg s v r with
  | some s' => (s', 0)
  | none => illegalReply s

/-- R174 to R176: an access to the register `r`. -/
def accessRegister (r : Reg) (t : Txn) (s : State) : Host.Outcome Reply Fault Refusal :=
  match t.rw with
  | .read => .next (readRegister s r)
  | .write => if r = .cmd then withoutData (runCommand t.wdata s) else .next (writeRegister s r t.wdata)

/-- R48, R61, R176: an access to REG, width 4 only, at an offset of the register map. -/
def accessReg (t : Txn) (s : State) : Host.Outcome Reply Fault Refusal :=
  match (if t.width = 4 then regAt t.offset else none) with
  | none => .next (illegalReply s)
  | some r => accessRegister r t s

/-- R177, R41, R48: may a buffer access of this width and offset reach only bytes below `limit`, aligned? -/
def accessLegal (t : Txn) (limit : Nat) : Bool :=
  (t.width == 1 || (t.width == 4 && t.offset % 4 == 0)) && decide (t.offset + t.width ≤ limit)

/-- The bytes a host read returns, from offset `a`, and the draws used up: a byte that holds no value gives a free byte
(R177, R222). -/
def drawBytes (m : Memory) : Nat → Nat → Nat → List Byte × Nat
  | _, 0, d => ([], d)
  | a, n + 1, d =>
    match m.read a with
    | some b => (b :: (drawBytes m (a + 1) n d).1, (drawBytes m (a + 1) n d).2)
    | none => (Config.freeByte d :: (drawBytes m (a + 1) n (d + 1)).1, (drawBytes m (a + 1) n (d + 1)).2)

/-- R177: the read data of one byte is the byte, zero-extended; of four bytes their big-endian word. -/
def replyWord : List Byte → Word
  | [b] => b.setWidth 32
  | [b0, b1, b2, b3] => be32 b0 b1 b2 b3
  | _ => 0

/-- R177: a legal read of a buffer. -/
def readBuffer (m : Memory) (t : Txn) (s : State) : Reply :=
  ({ s with draws := (drawBytes m t.offset t.width s.draws).2 }, replyWord (drawBytes m t.offset t.width s.draws).1)

/-- R177: the bytes a write stores: `v[7:0]`, or the four bytes of the word, most significant first. -/
def storedBytes (t : Txn) : List Byte := if t.width = 1 then [byteOf t.wdata 0] else wordToBytes t.wdata

/-- R177: an access to IBUF. -/
def accessIbuf (t : Txn) (s : State) : Reply :=
  if accessLegal t s.cfg.maxlen then
    match t.rw with
    | .read => readBuffer s.ibuf t s
    | .write => ({ s with ibuf := s.ibuf.writeBytes t.offset (storedBytes t) }, 0)
  else illegalReply s

/-- R177: an access to OBUF: reads below OLEN only; every write is illegal. -/
def accessObuf (t : Txn) (s : State) : Reply :=
  match t.rw with
  | .read => if accessLegal t s.olen.toNat then readBuffer s.obuf t s else illegalReply s
  | .write => illegalReply s

/-- R40, R60: one bus transaction, to completion (R50). -/
def transact (t : Txn) (s : State) : Host.Outcome Reply Fault Refusal :=
  match t.space with
  | .reg => accessReg t s
  | .ibuf => .next (accessIbuf t s)
  | .obuf => .next (accessObuf t s)
  | .reserved => .next (illegalReply s)

/-- R232: the observations of a run are the read data of its read transactions, in order. -/
def observe (d : Dir) (r : Reply) : State :=
  match d with
  | .read => { r.1 with observed := r.1.observed ++ [r.2] }
  | .write => r.1

/-- A transaction and what the host sees of it. -/
def runTxn (t : Txn) (s : State) : Host.Outcome State Fault Refusal :=
  match transact t s with
  | .next r => .next (observe t.rw r)
  | .fault r => .fault r
  | .refused r => .refused r

/-- R26, R131: what the ports carry during the step. -/
def State.withPorts (s : State) (tsec tsub : Word) : State := { s with tsec := tsec, tsub := tsub }

/-- R220, R232: one input of the outside world: a transaction with the ports' values during it, or hardware reset, whose
effect is exactly RESET's. -/
def takeInput (h : HostInput) (s : State) : Host.Outcome State Fault Refusal :=
  match h with
  | .bus t tsec tsub => runTxn t (s.withPorts tsec tsub)
  | .hardwareReset => .next s.resetEngine

/-- R50: takes the oldest input; with none the engine "simply holds its state" (R232). -/
def takeNext (s : State) : Host.Outcome State Fault Refusal :=
  match s.pending with
  | [] => .next s
  | h :: rest => takeInput h { s with pending := rest }

/-- R62: the transaction that issues a command word: a write of CMD. -/
def commandTxn (w : Word) : Txn := { rw := .write, width := 4, addr := regAddr .cmd, wdata := w }

end Sys2Proof.Machine
end

