-- ==== Sys2Proof/Machine/Step.lean ====
section
/-! DEFINITION. One step: the engine takes the oldest input the outside world has queued and completes it (spec/20_memory.md
R50; spec/70_reset_and_hazards.md R232). The engine fetches nothing (spec/10_state.md R29): its next command is the next
write of CMD in `pending`. -/
namespace Sys2Proof.Machine

/-- R50: one bus transaction, or one hardware reset, to completion. -/
def step (s : State) : Host.Outcome State Fault Refusal := takeNext s

/-- A write of CMD with the command word of an opcode-table row, put before every other input; the ports carry what they
carry (log 5). -/
def State.withFetchWord (s : State) (nbits w : Nat) : State :=
  { s with pending := .bus (commandTxn (BitVec.ofNat 32 (tableWord nbits w))) s.tsec s.tsub :: s.pending }

end Sys2Proof.Machine
end

