-- ==== Sys2Proof/Machine/Script.lean ====
section
/-! DEFINITION. Host scripts (spec/30_encoding.md R68, R69): statements, their transactions, and the pseudo-statements'
expansions; "none adds behaviour". -/
namespace Sys2Proof.Machine

/-- R68: the statements of a script. -/
inductive Stmt where
  | wr (r : Reg) (v : Word)
  | rd (r : Reg)
  | wb (off : Nat) (b : Byte)
  | ww (off : Nat) (w : Word)
  | rbIbuf (off : Nat)
  | rbObuf (off : Nat)
  | rwIbuf (off : Nat)
  | rwObuf (off : Nat)
  | cmd (i : Instr)
deriving DecidableEq, Repr

/-- R68: the transaction of a statement. `wdata` of a read is ignored (R60) and stands at 0. -/
def Stmt.txn : Stmt → Txn
  | .wr r v => { rw := .write, width := 4, addr := regAddr r, wdata := v }
  | .rd r => { rw := .read, width := 4, addr := regAddr r, wdata := 0 }
  | .wb off b => { rw := .write, width := 1, addr := ibufAddr off, wdata := b.setWidth 32 }
  | .ww off w => { rw := .write, width := 4, addr := ibufAddr off, wdata := w }
  | .rbIbuf off => { rw := .read, width := 1, addr := ibufAddr off, wdata := 0 }
  | .rbObuf off => { rw := .read, width := 1, addr := obufAddr off, wdata := 0 }
  | .rwIbuf off => { rw := .read, width := 4, addr := ibufAddr off, wdata := 0 }
  | .rwObuf off => { rw := .read, width := 4, addr := obufAddr off, wdata := 0 }
  | .cmd i => commandTxn (encode i)

/-- A script in an environment whose ports carry one pair throughout. -/
def scriptInputs (tsec tsub : Word) (p : List Stmt) : List HostInput := p.map (fun x => .bus x.txn tsec tsub)

/-- R69: the `wb` statements of `load`, from offset `off` on. -/
def writeAll : Nat → List Byte → List Stmt
  | _, [] => []
  | off, b :: bs => .wb off b :: writeAll (off + 1) bs

/-- R69: `load b0 b1 ... b(n−1)`. -/
def load (bs : List Byte) : List Stmt := writeAll 0 bs ++ [.wr .ilen (BitVec.ofNat 32 bs.length)]

/-- R69: the ASCII codes of the characters of a text. -/
def asciiBytes (text : String) : List Byte := text.toList.map (fun c => BitVec.ofNat 8 c.toNat)

/-- R69: `newengine`. -/
def newengine (salt : List Byte) : List Stmt := .cmd .reset :: (load salt ++ [.cmd .keysalt])

/-- R69: `setkey w0 w1 w2 w3`. -/
def setkey (k : Key) : List Stmt :=
  [.wr .kin0 k.k0, .wr .kin1 k.k1, .wr .kin2 k.k2, .wr .kin3 k.k3, .cmd .keyset]

/-- R69: `block y z`. -/
def loadBlock (b : Block) : List Stmt := [.wr .y b.y, .wr .z b.z]

/-- R69: `dump`, for the `n` that `rd OLEN` returns. -/
def dump (n : Nat) : List Stmt := .rd .olen :: (List.range n).map .rbObuf

/-- R69: the copying statements of `turn`, from offset `off` on, for the bytes the reads return. -/
def copyAll : Nat → List Byte → List Stmt
  | _, [] => []
  | off, b :: bs => .rbObuf off :: .wb off b :: copyAll (off + 1) bs

/-- R69: `turn`, for the bytes that its reads of OBUF return. -/
def turn (bs : List Byte) : List Stmt :=
  .rd .olen :: (copyAll 0 bs ++ [.wr .ilen (BitVec.ofNat 32 bs.length)])

end Sys2Proof.Machine
end

