-- ==== Sys2Proof/Safety.lean ====
section
/-! DEFINITION. The invariant of the engine, and the predicates the claims are stated in. -/
namespace Sys2Proof.Machine

/-- The bytes of IBUF below `n` have all been written since reset (R222). -/
def InputWritten (s : State) (n : Nat) : Prop := ∀ a < n, (s.ibuf.read a).isSome = true

/-- R222: the bytes of OBUF below OLEN, all "written by the command that set `OLEN`". -/
def OutputWritten (s : State) : Prop := ∀ a < s.olen.toNat, (s.obuf.read a).isSome = true

/-- Every offset a buffer lists is below its size (R27, R28). -/
def FitsBelow (m : Memory) (size : Nat) : Prop := ∀ c ∈ m, c.1 < size

/-- What holds in every state a run can reach: canonical buffers of the sizes R27 and R28 give them, lengths in the ranges R24
and R25 give them, every readable output byte written (R222), reserved bits 0 (R22, R23). -/
structure State.Inv (s : State) : Prop where
  ibufWf : s.ibuf.wf
  obufWf : s.obuf.wf
  ibufFits : FitsBelow s.ibuf s.cfg.maxlen
  obufFits : FitsBelow s.obuf (s.cfg.maxlen + 8)
  ilenLegal : s.ilen.toNat ≤ s.cfg.maxlen
  olenLegal : s.olen.toNat ≤ s.cfg.maxlen + 8
  outputWritten : OutputWritten s
  statusReservedZero : s.statusReserved = 0
  ctrlReservedZero : s.ctrlReserved = 0

/-- Two buffers read the same at every offset. -/
def SameBytes (m m' : Memory) : Prop := ∀ a, m'.read a = m.read a

/-- Two buffers read the same at every offset outside `a .. a+n−1`. -/
def SameBytesOutside (m m' : Memory) (a n : Nat) : Prop := ∀ x, x < a ∨ a + n ≤ x → m'.read x = m.read x

/-- The bytes of a buffer from offset `a` on are `bs` (R42). -/
def Holds (m : Memory) (a : Nat) (bs : List Byte) : Prop := ∀ i < bs.length, m.read (a + i) = bs[i]?

/-- The state in which the engine runs the input at the head of the queue: the input is taken, and the ports carry the
values it brings (R26, R50). -/
def State.taken (s : State) (rest : List HostInput) (tsec tsub : Word) : State :=
  { s with pending := rest, tsec := tsec, tsub := tsub }

/-- R60: the space a transaction selects, by arithmetic: address bits 31:30. -/
def spaceOf (t : Txn) : Nat := t.addr.toNat / 2 ^ 30

/-- R60: the offset a transaction names, by arithmetic: address bits 29:0. -/
def offsetOf (t : Txn) : Nat := t.addr.toNat % 2 ^ 30

/-- The accesses R66, R176 and R177 call illegal, in their words: (c) a reserved REG offset or space 3, (d) a write of a
read-only register or a read of CMD, (e) a misaligned, wrong-width or out-of-range access, (f) a write above MAXLEN to
ILEN, and (a), (b) a write to CMD of a word that is none of the twelve. -/
def IllegalAccess (s : State) (t : Txn) : Prop :=
  (t.width ≠ 1 ∧ t.width ≠ 4) ∨
  (t.width = 4 ∧ offsetOf t % 4 ≠ 0) ∨
  spaceOf t = 3 ∨
  (spaceOf t = 0 ∧ t.width = 1) ∨
  (spaceOf t = 0 ∧ (offsetOf t = 0x1C ∨ 0x48 ≤ offsetOf t)) ∨
  (spaceOf t = 0 ∧ t.rw = .read ∧ offsetOf t = 0x00) ∨
  (spaceOf t = 0 ∧ t.rw = .write ∧ offsetOf t ∈ [0x04, 0x10, 0x14, 0x18, 0x30, 0x34, 0x38, 0x3C]) ∨
  (spaceOf t = 0 ∧ t.rw = .write ∧ offsetOf t = 0x0C ∧ s.cfg.maxlen < t.wdata.toNat) ∨
  (spaceOf t = 0 ∧ t.rw = .write ∧ offsetOf t = 0x00 ∧ (t.wdata.toNat = 0 ∨ 0x0D ≤ t.wdata.toNat)) ∨
  (spaceOf t = 1 ∧ s.cfg.maxlen < offsetOf t + t.width) ∨
  (spaceOf t = 2 ∧ t.rw = .write) ∨
  (spaceOf t = 2 ∧ s.olen.toNat < offsetOf t + t.width)

/-- What is no state of the engine: ports, parameters, inputs to come, observations, draws. No command changes it. -/
def SameOutside (s t : State) : Prop :=
  t.tsec = s.tsec ∧ t.tsub = s.tsub ∧ t.cfg = s.cfg ∧ t.pending = s.pending ∧ t.observed = s.observed ∧
    t.draws = s.draws

/-- The bits of STATUS besides `ERR`: `STDONE`, `STPASS` and the reserved bits. -/
def SameSelftestBits (s t : State) : Prop :=
  t.stdone = s.stdone ∧ t.stpass = s.stpass ∧ t.statusReserved = s.statusReserved

/-- The whole engine but STATUS is unchanged, with every byte of both buffers, and so is what is outside it. -/
def SameButStatus (s t : State) : Prop :=
  t.k = s.k ∧ t.kin = s.kin ∧ t.y = s.y ∧ t.z = s.z ∧ t.ctrl = s.ctrl ∧ t.ilen = s.ilen ∧ t.olen = s.olen ∧
    SameBytes s.ibuf t.ibuf ∧ SameBytes s.obuf t.obuf ∧ SameOutside s t

/-- R32: every register at its reset value, every byte of both buffers without one. -/
def HasResetValues (t : State) : Prop :=
  t.k = { k0 := 0, k1 := 0, k2 := 0, k3 := 0 } ∧ t.kin = { k0 := 0, k1 := 0, k2 := 0, k3 := 0 } ∧ t.y = 0 ∧ t.z = 0 ∧
    t.status = 0 ∧ t.err = 0 ∧ t.stdone = false ∧ t.stpass = false ∧ t.ctrl = 0x00000001#32 ∧ t.cbc = true ∧
    t.ilen = 0 ∧ t.olen = 0 ∧ (∀ a, t.ibuf.read a = none) ∧ (∀ a, t.obuf.read a = none)

/-- R119: `r·DELTA mod 2^32`. -/
def roundSum (r : Nat) : Word := BitVec.ofNat 32 (r * 0x9E3779B9)

/-- R44: block `j` of a buffer: 8 bytes at offset 8j, or no value when one of them has none. -/
def Memory.blockAt (m : Memory) (j : Nat) : Option Block :=
  match m.read (8 * j), m.read (8 * j + 1), m.read (8 * j + 2), m.read (8 * j + 3),
    m.read (8 * j + 4), m.read (8 * j + 5), m.read (8 * j + 6), m.read (8 * j + 7) with
  | some b0, some b1, some b2, some b3, some b4, some b5, some b6, some b7 =>
    some { y := be32 b0 b1 b2 b3, z := be32 b4 b5 b6 b7 }
  | _, _, _, _, _, _, _, _ => none

end Sys2Proof.Machine
end

