-- ==== Sys2Proof/Certificates/Slice0/Obligations.lean ====
section
/-! DEFINITION. What the model is claimed to do, stated from the numbered rules of spec/. Nothing is proved here. -/

open Sys2Proof Sys2Proof.Machine

/-! ### Encodings -/

/-- R62, R63: the words written out bit by bit, `zero` (24 bits) then `op` (8 bits), decode to the commands they stand for. -/
def Obligations.CommandWordsDecodeToTheirCommands : Prop :=
  decode 0b00000000000000000000000000000001#32 = .ok .keysalt ∧
  decode 0b00000000000000000000000000000010#32 = .ok .keyset ∧
  decode 0b00000000000000000000000000000011#32 = .ok .encblk ∧
  decode 0b00000000000000000000000000000100#32 = .ok .decblk ∧
  decode 0b00000000000000000000000000000101#32 = .ok .pad ∧
  decode 0b00000000000000000000000000000110#32 = .ok .strip ∧
  decode 0b00000000000000000000000000000111#32 = .ok .encstr ∧
  decode 0b00000000000000000000000000001000#32 = .ok .decstr ∧
  decode 0b00000000000000000000000000001001#32 = .ok .encrypt ∧
  decode 0b00000000000000000000000000001010#32 = .ok .decrypt ∧
  decode 0b00000000000000000000000000001011#32 = .ok .selftest ∧
  decode 0b00000000000000000000000000001100#32 = .ok .reset

/-- R63, R62: of all 2^32 words the decoder accepts exactly the twelve of the opcode map, each as its command. -/
def Obligations.DecodeAcceptsExactlyTheOpcodeMap : Prop :=
  ∀ (w : Word) (i : Instr), decode w = .ok i ↔
    (w.toNat, i) ∈ [(0x01, Instr.keysalt), (0x02, .keyset), (0x03, .encblk), (0x04, .decblk), (0x05, .pad), (0x06, .strip),
      (0x07, .encstr), (0x08, .decstr), (0x09, .encrypt), (0x0A, .decrypt), (0x0B, .selftest), (0x0C, .reset)]

/-- R62, R63: decoding the encoding of a command gives it back, and a word that decodes is the encoding of what it decodes to. -/
def Obligations.DecodeAndEncodeAgree : Prop :=
  (∀ i : Instr, i.wf = true → decode (encode i) = .ok i) ∧ (∀ (w : Word) (i : Instr), decode w = .ok i → encode i = w)

/-- R61: the register map holds the 17 registers at their offsets and nothing else, and the offset of each register leads back to
it. -/
def Obligations.RegisterMapIsExact : Prop :=
  (∀ (off : Nat) (r : Reg), regAt off = some r ↔
    (off, r) ∈ [(0x00, Reg.cmd), (0x04, .status), (0x08, .ctrl), (0x0C, .ilen), (0x10, .olen), (0x14, .tsec), (0x18, .tsub),
      (0x20, .kin0), (0x24, .kin1), (0x28, .kin2), (0x2C, .kin3), (0x30, .k0), (0x34, .k1), (0x38, .k2), (0x3C, .k3),
      (0x40, .y), (0x44, .z)]) ∧
  (∀ r : Reg, regAt r.offset = some r)

/-! ### One step: transactions -/

/-- R21, R50: when the oldest input is a write of CMD whose word decodes to a command, the step is that command, on the state with
the input taken and the ports at the values it brings. -/
def Obligations.StepRunsTheDecodedCommand : Prop :=
  ∀ (s : State) (rest : List HostInput) (w a b : Word) (i : Instr),
    s.pending = .bus { rw := .write, width := 4, addr := 0x00000000#32, wdata := w } a b :: rest → decode w = .ok i →
      step s = exec i (s.taken rest a b)

/-- R232, R221: with no input the engine holds its state. -/
def Obligations.IdleEngineHoldsItsState : Prop :=
  ∀ s : State, s.pending = [] → step s = .next s

/-- R66, R176, R177, R195: an illegal access or an illegal command word sets `ERR` to 3 and changes nothing else of the engine; its
read data is 0. -/
def Obligations.IllegalRequestsSetErrOnly : Prop :=
  ∀ (s : State) (rest : List HostInput) (x : Txn) (a b : Word),
    s.pending = .bus x a b :: rest → IllegalAccess s x →
      ∃ t, step s = .next t ∧ t.err = 3#2 ∧ SameSelftestBits s t ∧
        t.k = s.k ∧ t.kin = s.kin ∧ t.y = s.y ∧ t.z = s.z ∧ t.ctrl = s.ctrl ∧ t.ilen = s.ilen ∧ t.olen = s.olen ∧
        SameBytes s.ibuf t.ibuf ∧ SameBytes s.obuf t.obuf ∧ t.cfg = s.cfg ∧ t.draws = s.draws ∧ t.pending = rest ∧
        t.tsec = a ∧ t.tsub = b ∧ t.observed = (match x.rw with | .read => s.observed ++ [0#32] | .write => s.observed)

/-- R174, R26: a read of a register returns its current value, of TSEC and TSUB the value the port carries then; no state
changes. The reserved bits of STATUS and CTRL are 0 in every reachable state (`State.Inv`). -/
def Obligations.RegisterReadsReturnTheRegister : Prop :=
  ∀ (s : State) (rest : List HostInput) (off : Nat) (v wd a b : Word),
    (off, v) ∈ [(0x04, s.status), (0x08, s.ctrl), (0x0C, s.ilen), (0x10, s.olen), (0x14, a), (0x18, b),
      (0x20, s.kin.k0), (0x24, s.kin.k1), (0x28, s.kin.k2), (0x2C, s.kin.k3),
      (0x30, s.k.k0), (0x34, s.k.k1), (0x38, s.k.k2), (0x3C, s.k.k3), (0x40, s.y), (0x44, s.z)] →
    s.statusReserved = 0 → s.ctrlReserved = 0 →
    s.pending = .bus { rw := .read, width := 4, addr := BitVec.ofNat 32 off, wdata := wd } a b :: rest →
      step s = .next { s.taken rest a b with observed := s.observed ++ [v] }

/-- R175, R23: a write of KIN[j], Y or Z stores all 32 bits, of CTRL bit 0 only, of ILEN a value not above MAXLEN; nothing else
changes, STATUS least of all. -/
def Obligations.RegisterWritesStoreTheValue : Prop :=
  ∀ (s : State) (rest : List HostInput) (off : Nat) (v a b : Word),
    s.pending = .bus { rw := .write, width := 4, addr := BitVec.ofNat 32 off, wdata := v } a b :: rest →
      (off = 0x08 → step s = .next { s.taken rest a b with ctrl := if v.getLsbD 0 then 1#32 else 0#32 }) ∧
      (off = 0x0C → v.toNat ≤ s.cfg.maxlen → step s = .next { s.taken rest a b with ilen := v }) ∧
      (off = 0x20 → step s = .next { s.taken rest a b with kin := { s.kin with k0 := v } }) ∧
      (off = 0x24 → step s = .next { s.taken rest a b with kin := { s.kin with k1 := v } }) ∧
      (off = 0x28 → step s = .next { s.taken rest a b with kin := { s.kin with k2 := v } }) ∧
      (off = 0x2C → step s = .next { s.taken rest a b with kin := { s.kin with k3 := v } }) ∧
      (off = 0x40 → step s = .next { s.taken rest a b with y := v }) ∧
      (off = 0x44 → step s = .next { s.taken rest a b with z := v })

/-- R177, R43, R47: a legal write of IBUF stores the byte `v[7:0]`, or the four bytes of the word most significant first, and
changes nothing else. -/
def Obligations.IbufWritesStoreTheBytes : Prop :=
  ∀ (s : State) (rest : List HostInput) (off width : Nat) (v a b : Word),
    (width = 1 ∨ (width = 4 ∧ off % 4 = 0)) → off + width ≤ s.cfg.maxlen →
    s.pending = .bus { rw := .write, width := width, addr := BitVec.ofNat 32 (0x40000000 + off), wdata := v } a b :: rest →
      ∃ t, step s = .next t ∧ t = { s.taken rest a b with ibuf := t.ibuf } ∧ SameBytesOutside s.ibuf t.ibuf off width ∧
        (width = 1 → t.ibuf.read off = some (v.extractLsb' 0 8)) ∧
        (width = 4 → t.ibuf.read off = some (v.extractLsb' 24 8) ∧ t.ibuf.read (off + 1) = some (v.extractLsb' 16 8) ∧
          t.ibuf.read (off + 2) = some (v.extractLsb' 8 8) ∧ t.ibuf.read (off + 3) = some (v.extractLsb' 0 8))

/-- R177, R41, R43: a legal read of IBUF below MAXLEN, or of OBUF below OLEN, whose bytes are written returns the byte
zero-extended, or the big-endian word of the four bytes, and changes nothing. `olen ≤ MAXLEN + 8` is a part of `State.Inv`. -/
def Obligations.BufferReadsReturnTheBytes : Prop :=
  ∀ (s : State) (rest : List HostInput) (off base limit : Nat) (m : Memory) (b0 b1 b2 b3 : Byte) (wd a b : Word),
    ((base = 0x40000000 ∧ m = s.ibuf ∧ limit = s.cfg.maxlen) ∨
      (base = 0x80000000 ∧ m = s.obuf ∧ limit = s.olen.toNat ∧ s.olen.toNat ≤ s.cfg.maxlen + 8)) →
      (off + 1 ≤ limit → m.read off = some b0 →
        s.pending = .bus { rw := .read, width := 1, addr := BitVec.ofNat 32 (base + off), wdata := wd } a b :: rest →
          step s = .next { s.taken rest a b with observed := s.observed ++ [b0.setWidth 32] }) ∧
      (off % 4 = 0 → off + 4 ≤ limit → m.read off = some b0 → m.read (off + 1) = some b1 → m.read (off + 2) = some b2 →
        m.read (off + 3) = some b3 →
        s.pending = .bus { rw := .read, width := 4, addr := BitVec.ofNat 32 (base + off), wdata := wd } a b :: rest →
          step s = .next { s.taken rest a b with observed := s.observed ++ [b0 ++ b1 ++ b2 ++ b3] })

/-- R49, R174, R177: a legal read, of a register or of a buffer byte written or not, returns some value and has no side effect on
the engine (only the model's own count of free bytes may advance, log 6). -/
def Obligations.LegalReadsHaveNoSideEffect : Prop :=
  ∀ (s : State) (rest : List HostInput) (x : Txn) (a b : Word),
    s.pending = .bus x a b :: rest → x.rw = .read → ¬ IllegalAccess s x →
      ∃ v d, step s = .next { s.taken rest a b with observed := s.observed ++ [v], draws := d }

/-- R47: a word written and then read byte by byte, and four bytes written and then read as a word, agree, most significant byte
at the lowest offset. -/
def Obligations.MixedWidthViewsAgree : Prop :=
  ∀ (s : State) (off : Nat) (w a b : Word) (b0 b1 b2 b3 : Byte), off % 4 = 0 → off + 4 ≤ s.cfg.maxlen →
    (s.pending = scriptInputs a b [.ww off w, .rbIbuf off, .rbIbuf (off + 1), .rbIbuf (off + 2), .rbIbuf (off + 3)] →
      ∃ t : State, Host.Core.run Sys2Proof.core 5 s = .next t ∧
        t.observed = s.observed ++ [(w.extractLsb' 24 8).setWidth 32, (w.extractLsb' 16 8).setWidth 32,
          (w.extractLsb' 8 8).setWidth 32, (w.extractLsb' 0 8).setWidth 32]) ∧
    (s.pending = scriptInputs a b [.wb off b0, .wb (off + 1) b1, .wb (off + 2) b2, .wb (off + 3) b3, .rwIbuf off] →
      ∃ t : State, Host.Core.run Sys2Proof.core 5 s = .next t ∧ t.observed = s.observed ++ [b0 ++ b1 ++ b2 ++ b3])

/-- R220, R172: hardware reset has exactly the effect of the command RESET. -/
def Obligations.HardwareResetActsAsReset : Prop :=
  ∀ (s : State) (rest : List HostInput), s.pending = .hardwareReset :: rest →
    step s = exec .reset { s with pending := rest }

/-! ### Reset and whole-machine rules -/

/-- R32: the reset values, in the model's reset state, after the command RESET and after hardware reset, whatever the state
before. -/
def Obligations.ResetStateHasTheSpecValues : Prop :=
  HasResetValues State.reset ∧ (∀ s t : State, exec .reset s = .next t → HasResetValues t) ∧
  (∀ (s t : State) (rest : List HostInput), s.pending = .hardwareReset :: rest → step s = .next t → HasResetValues t)

/-- The invariant holds at reset. -/
def Obligations.ResetStateMeetsTheInvariant : Prop := State.reset.Inv

/-- R22, R23, R24, R25, R27, R28, R222: every step, whatever the input, keeps the invariant: canonical buffers within their sizes,
legal lengths, every readable output byte written, reserved bits 0. -/
def Obligations.EveryStepKeepsTheInvariant : Prop :=
  ∀ s t : State, s.Inv → step s = .next t → t.Inv

/-- R104, R11: if a step changes `K`, its input was hardware reset or a write to CMD of KEYSALT, KEYSET or RESET. -/
def Obligations.KeyChangesOnlyByKeyCommandsAndReset : Prop :=
  ∀ s t : State, step s = .next t → t.k ≠ s.k →
    ∃ h rest, s.pending = h :: rest ∧ (h = .hardwareReset ∨
      ∃ x a b, h = .bus x a b ∧ x.rw = .write ∧ x.addr = 0x00000000#32 ∧
        x.wdata ∈ [0x00000001#32, 0x00000002#32, 0x0000000C#32])

/-- R22: if a step changes `STDONE` or `STPASS`, its input was hardware reset or a write to CMD of SELFTEST or RESET. -/
def Obligations.SelftestBitsChangeOnlyBySelftestAndReset : Prop :=
  ∀ s t : State, step s = .next t → (t.stdone ≠ s.stdone ∨ t.stpass ≠ s.stpass) →
    ∃ h rest, s.pending = h :: rest ∧ (h = .hardwareReset ∨
      ∃ x a b, h = .bus x a b ∧ x.rw = .write ∧ x.addr = 0x00000000#32 ∧ x.wdata ∈ [0x0000000B#32, 0x0000000C#32])

/-- R222: in a state that meets the invariant a step stops for one reason only: a command reads an IBUF byte below ILEN that holds
no value. -/
def Obligations.StepsStopOnlyOnUnwrittenInput : Prop :=
  ∀ (s : State) (r : Refusal), s.Inv → step s = .refused r →
    r = .unwrittenInput ∧ ∃ a < s.ilen.toNat, s.ibuf.read a = none

/-! ### The commands: result, completion and frame -/

/-- R102: KEYSALT puts `deriveKey` of the input bytes into `K` and 0 into `ERR`, and changes nothing else. Only the first 16 bytes
of a longer input need be written, and only they matter. -/
def Obligations.KeysaltDerivesTheKey : Prop :=
  ∀ (s : State) (salt : List Byte), salt.length = s.ilen.toNat → Holds s.ibuf 0 (salt.take 16) →
    ∃ t, exec .keysalt s = .next t ∧ t.k = deriveKey salt ∧ t.err = 0#2 ∧ SameSelftestBits s t ∧
      t.kin = s.kin ∧ t.y = s.y ∧ t.z = s.z ∧ t.ctrl = s.ctrl ∧ t.ilen = s.ilen ∧ t.olen = s.olen ∧
      SameBytes s.ibuf t.ibuf ∧ SameBytes s.obuf t.obuf ∧ SameOutside s t

/-- R103: KEYSET copies `KIN` to `K`, puts 0 into `ERR`, and changes nothing else. -/
def Obligations.KeysetCopiesTheStagingRegisters : Prop :=
  ∀ s : State, ∃ t, exec .keyset s = .next t ∧
      t.k.k0 = s.kin.k0 ∧ t.k.k1 = s.kin.k1 ∧ t.k.k2 = s.kin.k2 ∧ t.k.k3 = s.kin.k3 ∧
      t.err = 0#2 ∧ SameSelftestBits s t ∧
      t.kin = s.kin ∧ t.y = s.y ∧ t.z = s.z ∧ t.ctrl = s.ctrl ∧ t.ilen = s.ilen ∧ t.olen = s.olen ∧
      SameBytes s.ibuf t.ibuf ∧ SameBytes s.obuf t.obuf ∧ SameOutside s t

/-- R114: ENCBLK encrypts the block registers in place, puts 0 into `ERR`, and changes nothing else, whatever `CTRL.CBC` is. -/
def Obligations.EncblkEncryptsTheBlockRegisters : Prop :=
  ∀ s : State, ∃ t, exec .encblk s = .next t ∧ ({ y := t.y, z := t.z } : Block) = encryptBlock s.k { y := s.y, z := s.z } ∧
      t.err = 0#2 ∧ SameSelftestBits s t ∧
      t.k = s.k ∧ t.kin = s.kin ∧ t.ctrl = s.ctrl ∧ t.ilen = s.ilen ∧ t.olen = s.olen ∧
      SameBytes s.ibuf t.ibuf ∧ SameBytes s.obuf t.obuf ∧ SameOutside s t

/-- R116: DECBLK decrypts the block registers in place, puts 0 into `ERR`, and changes nothing else; with whatever key. -/
def Obligations.DecblkDecryptsTheBlockRegisters : Prop :=
  ∀ s : State, ∃ t, exec .decblk s = .next t ∧ ({ y := t.y, z := t.z } : Block) = decryptBlock s.k { y := s.y, z := s.z } ∧
      t.err = 0#2 ∧ SameSelftestBits s t ∧
      t.k = s.k ∧ t.kin = s.kin ∧ t.ctrl = s.ctrl ∧ t.ilen = s.ilen ∧ t.olen = s.olen ∧
      SameBytes s.ibuf t.ibuf ∧ SameBytes s.obuf t.obuf ∧ SameOutside s t

/-- R151: PAD raises ILEN to the next multiple of 8, not above MAXLEN, fills the new bytes of IBUF with 0x20, puts 0 into `ERR`, and
changes nothing else. `ilen ≤ MAXLEN` is a part of `State.Inv`. -/
def Obligations.PadFillsUpToTheNextBlock : Prop :=
  ∀ s : State, s.ilen.toNat ≤ s.cfg.maxlen →
    ∃ t, exec .pad s = .next t ∧ t.ilen.toNat = 8 * ((s.ilen.toNat + 7) / 8) ∧ t.ilen.toNat ≤ s.cfg.maxlen ∧
      (∀ a, s.ilen.toNat ≤ a → a < t.ilen.toNat → t.ibuf.read a = some 0x20#8) ∧
      SameBytesOutside s.ibuf t.ibuf s.ilen.toNat (t.ilen.toNat - s.ilen.toNat) ∧
      t.err = 0#2 ∧ SameSelftestBits s t ∧
      t.k = s.k ∧ t.kin = s.kin ∧ t.y = s.y ∧ t.z = s.z ∧ t.ctrl = s.ctrl ∧ t.olen = s.olen ∧
      SameBytes s.obuf t.obuf ∧ SameOutside s t

/-- R153: STRIP lowers OLEN past the trailing WS bytes and no further, puts 0 into `ERR`, and changes nothing else: no byte of OBUF
is written. `OutputWritten` is a part of `State.Inv`. -/
def Obligations.StripCutsTheTrailingWhitespace : Prop :=
  ∀ s : State, OutputWritten s →
    ∃ t, exec .strip s = .next t ∧ t.olen.toNat ≤ s.olen.toNat ∧
      (∀ a, t.olen.toNat ≤ a → a < s.olen.toNat → ∃ b ∈ s.cfg.ws, s.obuf.read a = some b) ∧
      (t.olen.toNat = 0 ∨ ∃ b, b ∉ s.cfg.ws ∧ s.obuf.read (t.olen.toNat - 1) = some b) ∧
      t.err = 0#2 ∧ SameSelftestBits s t ∧
      t.k = s.k ∧ t.kin = s.kin ∧ t.y = s.y ∧ t.z = s.z ∧ t.ctrl = s.ctrl ∧ t.ilen = s.ilen ∧
      SameBytes s.ibuf t.ibuf ∧ SameBytes s.obuf t.obuf ∧ SameOutside s t

/-- R132, R130, R131, chained mode: block 0 of the output is the pair of time words, as it is; block j+1 is the encryption of
plaintext block j XORed word-wise with output block j; OLEN is ILEN + 8; nothing else changes, and OBUF only below the new
OLEN. `ilen ≤ MAXLEN` is a part of `State.Inv`. -/
def Obligations.EncstrChainsTheBlocks : Prop :=
  ∀ s : State, s.ilen.toNat ≤ s.cfg.maxlen → s.ilen.toNat % 8 = 0 → InputWritten s s.ilen.toNat → s.cbc = true →
    ∃ t, exec .encstr s = .next t ∧ t.olen.toNat = s.ilen.toNat + 8 ∧ t.err = 0#2 ∧
      t.obuf.blockAt 0 = some { y := s.tsec, z := s.tsub } ∧
      (∀ j < s.ilen.toNat / 8, ∃ p c, s.ibuf.blockAt j = some p ∧ t.obuf.blockAt j = some c ∧
        t.obuf.blockAt (j + 1) = some (encryptBlock s.k { y := p.y ^^^ c.y, z := p.z ^^^ c.z })) ∧
      SameBytesOutside s.obuf t.obuf 0 (s.ilen.toNat + 8) ∧ SameSelftestBits s t ∧
      t.k = s.k ∧ t.kin = s.kin ∧ t.y = s.y ∧ t.z = s.z ∧ t.ctrl = s.ctrl ∧ t.ilen = s.ilen ∧
      SameBytes s.ibuf t.ibuf ∧ SameOutside s t

/-- R132, R130, direct mode: block j of the output is the encryption of plaintext block j; OLEN is ILEN. -/
def Obligations.EncstrDirectEncryptsEachBlock : Prop :=
  ∀ s : State, s.ilen.toNat ≤ s.cfg.maxlen → s.ilen.toNat % 8 = 0 → InputWritten s s.ilen.toNat → s.cbc = false →
    ∃ t, exec .encstr s = .next t ∧ t.olen = s.ilen ∧ t.err = 0#2 ∧
      (∀ j < s.ilen.toNat / 8, ∃ p, s.ibuf.blockAt j = some p ∧ t.obuf.blockAt j = some (encryptBlock s.k p)) ∧
      SameBytesOutside s.obuf t.obuf 0 s.ilen.toNat ∧ SameSelftestBits s t ∧
      t.k = s.k ∧ t.kin = s.kin ∧ t.y = s.y ∧ t.z = s.z ∧ t.ctrl = s.ctrl ∧ t.ilen = s.ilen ∧
      SameBytes s.ibuf t.ibuf ∧ SameOutside s t

/-- R134, R133, chained mode: output block j is the decryption of stream block j+1 XORed word-wise with the RAW stream block j;
OLEN is ILEN − 8; nothing else changes, and OBUF only below the new OLEN. -/
def Obligations.DecstrUnchainsTheBlocks : Prop :=
  ∀ s : State, s.ilen.toNat ≤ s.cfg.maxlen → s.ilen.toNat % 8 = 0 → 16 ≤ s.ilen.toNat → InputWritten s s.ilen.toNat →
    s.cbc = true →
    ∃ t, exec .decstr s = .next t ∧ t.olen.toNat = s.ilen.toNat - 8 ∧ t.err = 0#2 ∧
      (∀ j < s.ilen.toNat / 8 - 1, ∃ v c d, s.ibuf.blockAt j = some v ∧ s.ibuf.blockAt (j + 1) = some c ∧
        decryptBlock s.k c = d ∧ t.obuf.blockAt j = some { y := d.y ^^^ v.y, z := d.z ^^^ v.z }) ∧
      SameBytesOutside s.obuf t.obuf 0 (s.ilen.toNat - 8) ∧ SameSelftestBits s t ∧
      t.k = s.k ∧ t.kin = s.kin ∧ t.y = s.y ∧ t.z = s.z ∧ t.ctrl = s.ctrl ∧ t.ilen = s.ilen ∧
      SameBytes s.ibuf t.ibuf ∧ SameOutside s t

/-- R134, R133, direct mode: output block j is the decryption of stream block j; OLEN is ILEN, 0 included. -/
def Obligations.DecstrDirectDecryptsEachBlock : Prop :=
  ∀ s : State, s.ilen.toNat ≤ s.cfg.maxlen → s.ilen.toNat % 8 = 0 → InputWritten s s.ilen.toNat → s.cbc = false →
    ∃ t, exec .decstr s = .next t ∧ t.olen = s.ilen ∧ t.err = 0#2 ∧
      (∀ j < s.ilen.toNat / 8, ∃ c, s.ibuf.blockAt j = some c ∧ t.obuf.blockAt j = some (decryptBlock s.k c)) ∧
      SameBytesOutside s.obuf t.obuf 0 s.ilen.toNat ∧ SameSelftestBits s t ∧
      t.k = s.k ∧ t.kin = s.kin ∧ t.y = s.y ∧ t.z = s.z ∧ t.ctrl = s.ctrl ∧ t.ilen = s.ilen ∧
      SameBytes s.ibuf t.ibuf ∧ SameOutside s t

/-- R194, R190, R135, R196: a stream command whose length is wrong raises the error its first failing check names (multiple of 4,
then multiple of 8, then two blocks in chained mode; for ENCSTR multiple of 8): `ERR` takes the code, OLEN 0, and nothing else
changes, whatever the buffers hold. -/
def Obligations.WrongLengthsRaiseTheError : Prop :=
  ∀ (s : State) (i : Instr) (code : BitVec 2),
    ((i = .encstr ∧ s.ilen.toNat % 8 ≠ 0 ∧ code = 1#2) ∨
     ((i = .decstr ∨ i = .decrypt) ∧
      ((s.ilen.toNat % 4 ≠ 0 ∧ code = 1#2) ∨
       (s.ilen.toNat % 4 = 0 ∧ s.ilen.toNat % 8 ≠ 0 ∧ code = 2#2) ∨
       (s.ilen.toNat % 8 = 0 ∧ s.cbc = true ∧ s.ilen.toNat / 8 < 2 ∧ code = 2#2)))) →
    ∃ t, exec i s = .next t ∧ t.err = code ∧ t.olen = 0 ∧ SameSelftestBits s t ∧
      t.k = s.k ∧ t.kin = s.kin ∧ t.y = s.y ∧ t.z = s.z ∧ t.ctrl = s.ctrl ∧ t.ilen = s.ilen ∧
      SameBytes s.ibuf t.ibuf ∧ SameBytes s.obuf t.obuf ∧ SameOutside s t

/-- R155, R191: ENCRYPT is PAD and then ENCSTR as one command; it completes with `ERR` = 0 for a message of any legal length whose
bytes are written, and its output has 8·ceil(L/8) bytes, 8 more in chained mode. -/
def Obligations.EncryptIsPadThenEncstr : Prop :=
  ∀ s : State, s.ilen.toNat ≤ s.cfg.maxlen → InputWritten s s.ilen.toNat →
    ∃ u t, exec .pad s = .next u ∧ exec .encstr u = .next t ∧ exec .encrypt s = .next t ∧ t.err = 0#2 ∧
      t.olen.toNat = 8 * ((s.ilen.toNat + 7) / 8) + (if s.cbc then 8 else 0) ∧ t.ilen = u.ilen ∧ SameBytes u.ibuf t.ibuf ∧
      t.ilen.toNat = 8 * ((s.ilen.toNat + 7) / 8) ∧
      SameBytesOutside s.ibuf t.ibuf s.ilen.toNat (t.ilen.toNat - s.ilen.toNat) ∧
      SameBytesOutside s.obuf t.obuf 0 t.olen.toNat ∧ SameSelftestBits s t ∧
      t.k = s.k ∧ t.kin = s.kin ∧ t.y = s.y ∧ t.z = s.z ∧ t.ctrl = s.ctrl ∧ SameOutside s t

/-- R156, R193: DECRYPT of a stream of legal length is DECSTR and then STRIP as one command; it completes with `ERR` = 0 whatever
the key and whatever the bytes. -/
def Obligations.DecryptIsDecstrThenStrip : Prop :=
  ∀ s : State, s.ilen.toNat ≤ s.cfg.maxlen → s.ilen.toNat % 8 = 0 → (s.cbc = true → 16 ≤ s.ilen.toNat) →
    InputWritten s s.ilen.toNat →
    ∃ u t, exec .decstr s = .next u ∧ exec .strip u = .next t ∧ exec .decrypt s = .next t ∧ t.err = 0#2 ∧
      t.olen.toNat ≤ u.olen.toNat ∧ SameBytes u.obuf t.obuf ∧ SameBytesOutside s.obuf t.obuf 0 u.olen.toNat ∧
      SameSelftestBits s t ∧
      t.k = s.k ∧ t.kin = s.kin ∧ t.y = s.y ∧ t.z = s.z ∧ t.ctrl = s.ctrl ∧ t.ilen = s.ilen ∧
      SameBytes s.ibuf t.ibuf ∧ SameOutside s t

/-- R171: SELFTEST puts into `STPASS` whether both vectors match, which they do, sets `STDONE`, puts 0 into `ERR`, and changes
nothing else. -/
def Obligations.SelftestPassesAndTouchesOnlyStatus : Prop :=
  ∀ s : State, ∃ t, exec .selftest s = .next t ∧
      t.stpass = decide (
        encryptBlock { k0 := 0, k1 := 0, k2 := 0, k3 := 0 } { y := 0x41414141#32, z := 0x41414141#32 } =
          { y := 0xED23375A#32, z := 0x821A8C2D#32 } ∧
        encryptBlock { k0 := 0x00010203#32, k1 := 0x04050607#32, k2 := 0x08090A0B#32, k3 := 0x0C0D0E0F#32 }
          { y := 0x41424344#32, z := 0x45464748#32 } = { y := 0x497DF3D0#32, z := 0x72612CB5#32 }) ∧
      t.stpass = true ∧ t.stdone = true ∧ t.err = 0#2 ∧ t.statusReserved = s.statusReserved ∧ SameButStatus s t

/-- R172, R32: RESET brings every register to its reset value and leaves no byte of either buffer with a value. The last clause,
that what is outside the engine stays (ports, parameters, queued inputs, observations, draws), is the model's own: log 13, DEDUCED
from R26, R220 and R232. -/
def Obligations.ResetRestoresTheResetValues : Prop :=
  ∀ s : State, ∃ t, exec .reset s = .next t ∧ HasResetValues t ∧ SameOutside s t

/-- R222, U1, R135 and log 4: a command that would read an IBUF byte that holds no value is refused, KEYSALT for the first 16 bytes
only. The length checks, made before the first byte is read, come first: where one fails, the command raises its error although
the byte holds no value. -/
def Obligations.CommandsOnUnwrittenInputAreRefused : Prop :=
  ∀ s : State, ∀ a < s.ilen.toNat, s.ibuf.read a = none →
    (a < 16 → exec .keysalt s = .refused .unwrittenInput) ∧
    (s.ilen.toNat % 8 = 0 → exec .encstr s = .refused .unwrittenInput) ∧
    (s.ilen.toNat % 8 ≠ 0 → ∃ t, exec .encstr s = .next t ∧ t.err = 1#2 ∧ t.olen = 0) ∧
    (s.ilen.toNat % 8 = 0 → (s.cbc = true → 16 ≤ s.ilen.toNat) →
      exec .decstr s = .refused .unwrittenInput ∧ exec .decrypt s = .refused .unwrittenInput) ∧
    (s.ilen.toNat % 8 ≠ 0 ∨ (s.cbc = true ∧ s.ilen.toNat < 16) →
      ∃ t, exec .decstr s = .next t ∧ exec .decrypt s = .next t ∧
        t.err = (if s.ilen.toNat % 4 = 0 then 2#2 else 1#2) ∧ t.olen = 0) ∧
    (s.ilen.toNat ≤ s.cfg.maxlen → exec .encrypt s = .refused .unwrittenInput)

/-- R198: a command that ended with MalformedInput or TruncatedInput, issued again on the state it left, ends the same way and
leaves the same state. -/
def Obligations.FailedCommandFailsAgainAlike : Prop :=
  ∀ (i : Instr) (s t : State), exec i s = .next t → (t.err = 1#2 ∨ t.err = 2#2) → exec i t = .next t

/-- R31, R64, R131: what a stream command returns is a function of `K`, `CTRL.CBC`, ILEN, the input bytes below ILEN, the
parameters, and, for ENCSTR and ENCRYPT in chained mode only, the time words: two states that agree on these give the same `ERR`,
ILEN, OLEN and output bytes, whatever else they hold (stale output, other registers, other time words in every other case). -/
def Obligations.StreamResultsDependOnTheirOperandsOnly : Prop :=
  ∀ (i : Instr) (s u t : State), i ∈ [Instr.encstr, .decstr, .encrypt, .decrypt] →
    u.k = s.k → u.cbc = s.cbc → u.ilen = s.ilen → u.cfg = s.cfg →
    (s.cbc = true → (i = .encstr ∨ i = .encrypt) → u.tsec = s.tsec ∧ u.tsub = s.tsub) →
    (∀ a < s.ilen.toNat, u.ibuf.read a = s.ibuf.read a) → exec i s = .next t →
      ∃ t', exec i u = .next t' ∧ t'.err = t.err ∧ t'.ilen = t.ilen ∧ t'.olen = t.olen ∧
        ∀ a < t.olen.toNat, t'.obuf.read a = t.obuf.read a

/-- R172: after RESET nothing of the previous owner is left: two engines that differ in any register or buffer byte, but not in
what is outside them, are in the same state after it. What counts as outside is the model's own: log 13, DEDUCED from R26, R220 and
R232. -/
def Obligations.ResetErasesThePreviousOwner : Prop :=
  ∀ s u t t' : State, SameOutside s u → exec .reset s = .next t → exec .reset u = .next t' → t' = t

/-! ### The datapath functions -/

/-- R83 to R87: the arithmetic on the values of the words. -/
def Obligations.ArithmeticIsModulo : Prop :=
  ∀ (a b : Word) (n : Nat),
    (add32 a b).toNat = (a.toNat + b.toNat) % 2 ^ 32 ∧
    (neg32 a).toNat = (2 ^ 32 - a.toNat) % 2 ^ 32 ∧ add32 a (neg32 a) = 0 ∧ add32 (add32 a b) (neg32 b) = a ∧
    (rshift32 a n).toNat = a.toNat / 2 ^ n ∧
    (shl32 a n).toNat = a.toNat * 2 ^ n % 2 ^ 32 ∧
    (and3 a).toNat = a.toNat % 4 ∧
    (∀ i, (xor32 a b).getLsbD i = (a.getLsbD i != b.getLsbD i)) ∧ xor32 (xor32 a b) b = a

/-- R80, R81: the word of four bytes has the value R80 gives, `wordToBytes` gives the bytes R81 gives, and each undoes the
other. -/
def Obligations.WordCodecIsBigEndian : Prop :=
  (∀ b0 b1 b2 b3 : Byte,
    (be32 b0 b1 b2 b3).toNat = b0.toNat * 2 ^ 24 + b1.toNat * 2 ^ 16 + b2.toNat * 2 ^ 8 + b3.toNat ∧
    wordToBytes (be32 b0 b1 b2 b3) = [b0, b1, b2, b3]) ∧
  (∀ w : Word, ∃ b0 b1 b2 b3, wordToBytes w = [b0, b1, b2, b3] ∧ be32 b0 b1 b2 b3 = w ∧
    b0.toNat = w.toNat / 2 ^ 24 ∧ b1.toNat = w.toNat / 2 ^ 16 % 256 ∧ b2.toNat = w.toNat / 2 ^ 8 % 256 ∧
    b3.toNat = w.toNat % 256)

/-- R82: `bytesToWords` fails exactly on a length that is no multiple of 4, else gives L/4 words, word k of bytes 4k .. 4k+3, and
serializing those words gives the bytes back. -/
def Obligations.BytesToWordsSplitsInOrder : Prop :=
  ∀ s : List Byte,
    (bytesToWords s = none ↔ s.length % 4 ≠ 0) ∧
    (∀ ws, bytesToWords s = some ws → ws.length = s.length / 4 ∧ wordsToBytes ws = s ∧
      ∀ k < s.length / 4, ∃ b0 b1 b2 b3, s[4 * k]? = some b0 ∧ s[4 * k + 1]? = some b1 ∧ s[4 * k + 2]? = some b2 ∧
        s[4 * k + 3]? = some b3 ∧ ws[k]? = some (be32 b0 b1 b2 b3))

/-- R100, R46: the empty salt gives the zero key; any other gives the key of the 16 bytes `kb[i] = salt[i mod n]`. -/
def Obligations.DeriveKeyRepeatsOrCutsTheSalt : Prop :=
  deriveKey [] = { k0 := 0, k1 := 0, k2 := 0, k3 := 0 } ∧
  ∀ salt : List Byte, salt ≠ [] → ∃ kb : Nat → Byte, (∀ i < 16, salt[i % salt.length]? = some (kb i)) ∧
    deriveKey salt = { k0 := be32 (kb 0) (kb 1) (kb 2) (kb 3), k1 := be32 (kb 4) (kb 5) (kb 6) (kb 7),
                       k2 := be32 (kb 8) (kb 9) (kb 10) (kb 11), k3 := be32 (kb 12) (kb 13) (kb 14) (kb 15) }

/-- R101: what follows by the length of the salt. -/
def Obligations.DeriveKeyByLengthOfSalt : Prop :=
  (∀ salt : List Byte, deriveKey salt = deriveKey (salt.take 16)) ∧
  (∀ b : Byte, deriveKey [b] = { k0 := be32 b b b b, k1 := be32 b b b b, k2 := be32 b b b b, k3 := be32 b b b b }) ∧
  (∀ b0 b1 b2 b3 : Byte, deriveKey [b0, b1, b2, b3] =
    { k0 := be32 b0 b1 b2 b3, k1 := be32 b0 b1 b2 b3, k2 := be32 b0 b1 b2 b3, k3 := be32 b0 b1 b2 b3 }) ∧
  (∀ w0 w1 w2 w3 : Word, deriveKey (wordToBytes w0 ++ wordToBytes w1 ++ wordToBytes w2 ++ wordToBytes w3) =
    { k0 := w0, k1 := w1, k2 := w2, k3 := w3 }) ∧
  deriveKey (List.replicate 16 0) = deriveKey []

/-- R113, R110, R111, R112: the block after 32 rounds, each a Y-update with the old `sum`, the advance of `sum` by DELTA, and a
Z-update with the new `y` and the new `sum`, with F and the key indexes written out. -/
def Obligations.EncryptBlockRunsThirtyTwoRounds : Prop :=
  ∀ (k : Key) (b : Block), ∃ sum y z : Nat → Word,
    sum 0 = 0 ∧ y 0 = b.y ∧ z 0 = b.z ∧
    (∀ i < 32,
      y (i + 1) = y i + ((((z i <<< 4) ^^^ (z i >>> 5)) + z i) ^^^
        (sum i + [k.k0, k.k1, k.k2, k.k3].getD ((sum i).toNat % 4) 0)) ∧
      sum (i + 1) = sum i + 0x9E3779B9#32 ∧
      z (i + 1) = z i + ((((y (i + 1) <<< 4) ^^^ (y (i + 1) >>> 5)) + y (i + 1)) ^^^
        (sum (i + 1) + [k.k0, k.k1, k.k2, k.k3].getD ((sum (i + 1)).toNat / 2 ^ 11 % 4) 0))) ∧
    encryptBlock k b = { y := y 32, z := z 32 } ∧ sum 32 = 0xC6EF3720#32

/-- R115: the block after 32 inverse rounds, each undoing the Z-update, lowering `sum` by DELTA, and undoing the Y-update with the
restored `z`. -/
def Obligations.DecryptBlockRunsThirtyTwoInverseRounds : Prop :=
  ∀ (k : Key) (b : Block), ∃ sum y z : Nat → Word,
    sum 0 = 0xC6EF3720#32 ∧ y 0 = b.y ∧ z 0 = b.z ∧
    (∀ i < 32,
      z (i + 1) = z i - ((((y i <<< 4) ^^^ (y i >>> 5)) + y i) ^^^
        (sum i + [k.k0, k.k1, k.k2, k.k3].getD ((sum i).toNat / 2 ^ 11 % 4) 0)) ∧
      sum (i + 1) = sum i - 0x9E3779B9#32 ∧
      y (i + 1) = y i - ((((z (i + 1) <<< 4) ^^^ (z (i + 1) >>> 5)) + z (i + 1)) ^^^
        (sum (i + 1) + [k.k0, k.k1, k.k2, k.k3].getD ((sum (i + 1)).toNat % 4) 0))) ∧
    decryptBlock k b = { y := y 32, z := z 32 } ∧ sum 32 = 0

/-- R119: which value of `sum`, and with it which key word, each update of each round uses, the same for every key and block:
round r+1 of encryption r·DELTA for the Y-update and (r+1)·DELTA for the Z-update, round r+1 of decryption (32−r)·DELTA for the
Z-step and (31−r)·DELTA for the Y-step; and the table of these sums and key indexes. -/
def Obligations.SumAndKeyIndexSchedule : Prop :=
  (∀ (k : Key) (y z : Word), ∀ r < 32, ∃ a b : RoundState,
    rounds (encRound k) r { sum := 0, y := y, z := z } = a ∧ rounds (encRound k) (r + 1) { sum := 0, y := y, z := z } = b ∧
    a.sum = roundSum r ∧ b.sum = roundSum (r + 1) ∧
    b.y = a.y + mixF a.z (roundSum r) (keyAt k (yIndex (roundSum r))) ∧
    b.z = a.z + mixF b.y (roundSum (r + 1)) (keyAt k (zIndex (roundSum (r + 1))))) ∧
  (∀ (k : Key) (y z : Word), ∀ r < 32, ∃ a b : RoundState,
    rounds (decRound k) r { sum := sumEnd, y := y, z := z } = a ∧
    rounds (decRound k) (r + 1) { sum := sumEnd, y := y, z := z } = b ∧
    a.sum = roundSum (32 - r) ∧ b.sum = roundSum (31 - r) ∧
    b.z = a.z - mixF a.y (roundSum (32 - r)) (keyAt k (zIndex (roundSum (32 - r)))) ∧
    b.y = a.y - mixF b.z (roundSum (31 - r)) (keyAt k (yIndex (roundSum (31 - r))))) ∧
  (List.range 32).map (fun r => ((yIndex (roundSum r)).toNat, (roundSum (r + 1)).toNat, (zIndex (roundSum (r + 1))).toNat)) =
    [(0, 0x9e3779b9, 3), (1, 0x3c6ef372, 2), (2, 0xdaa66d2b, 1), (3, 0x78dde6e4, 0), (0, 0x1715609d, 0), (1, 0xb54cda56, 3),
     (2, 0x5384540f, 2), (3, 0xf1bbcdc8, 1)] ++
    [(0, 0x8ff34781, 0), (1, 0x2e2ac13a, 0), (2, 0xcc623af3, 3), (3, 0x6a99b4ac, 2), (0, 0x08d12e65, 1), (1, 0xa708a81e, 1),
     (2, 0x454021d7, 0), (3, 0xe3779b90, 3)] ++
    [(0, 0x81af1549, 2), (1, 0x1fe68f02, 1), (2, 0xbe1e08bb, 1), (3, 0x5c558274, 0), (0, 0xfa8cfc2d, 3), (1, 0x98c475e6, 2),
     (2, 0x36fbef9f, 1), (3, 0xd5336958, 1)] ++
    [(0, 0x736ae311, 0), (1, 0x11a25cca, 3), (2, 0xafd9d683, 2), (3, 0x4e11503c, 2), (0, 0xec48c9f5, 1), (1, 0x8a8043ae, 0),
     (2, 0x28b7bd67, 3), (3, 0xc6ef3720, 2)]

/-- R118: the two vectors FE publishes. -/
def Obligations.PublishedVectorsHold : Prop :=
  encryptBlock { k0 := 0, k1 := 0, k2 := 0, k3 := 0 } { y := 0x41414141#32, z := 0x41414141#32 } =
    { y := 0xed23375a#32, z := 0x821a8c2d#32 } ∧
  encryptBlock { k0 := 0x00010203#32, k1 := 0x04050607#32, k2 := 0x08090a0b#32, k3 := 0x0c0d0e0f#32 }
    { y := 0x41424344#32, z := 0x45464748#32 } = { y := 0x497df3d0#32, z := 0x72612cb5#32 }

/-- R117: for every key, decryption undoes encryption and encryption undoes decryption. -/
def Obligations.DecryptBlockInvertsEncryptBlock : Prop :=
  ∀ (k : Key) (b : Block), decryptBlock k (encryptBlock k b) = b ∧ encryptBlock k (decryptBlock k b) = b

/-- R136: stream inverse: for every key, every plaintext of whole blocks and every IV, chained (at least one block) and direct
(none included). -/
def Obligations.DecryptStreamInvertsEncryptStream : Prop :=
  ∀ (k : Key) (p : List Byte) (iv : Block), p.length % 8 = 0 →
    (1 ≤ p.length → decryptStream k (encryptStream k p true iv) true = p) ∧
    decryptStream k (encryptStream k p false iv) false = p

/-- R137 (c), R133: changing the IV block of a chained stream by a mask changes the first plaintext block by the same mask and
nothing else; a stream block that is wrong spoils at most the plaintext block made from it and the next one. -/
def Obligations.TamperingSpoilsOnlyNearbyBlocks : Prop :=
  (∀ (k : Key) (iv c m : Block) (cs : List Block), ∃ p ps, decryptBlocks k true (iv :: c :: cs) = p :: ps ∧
    decryptBlocks k true (xorBlock iv m :: c :: cs) = xorBlock p m :: ps) ∧
  (∀ (k : Key) (cs ds : List Block) (j : Nat), cs.length = ds.length → (∀ i, i ≠ j → cs[i]? = ds[i]?) →
    ∀ i, i ≠ j → i + 1 ≠ j → (decryptBlocks k true cs)[i]? = (decryptBlocks k true ds)[i]?)

/-- R150, R152: `pad` adds 0 to 7 bytes 0x20 up to a multiple of 8; `strip` keeps a prefix, cuts off only WS bytes, and what it
keeps does not end in one. -/
def Obligations.PaddingAndStrippingOfBytes : Prop :=
  (∀ p : List Byte, ∃ m < 8, padBytes p = p ++ List.replicate m 0x20#8 ∧ (p.length + m) % 8 = 0) ∧
  (∀ ws p : List Byte, ∃ cut, p = stripBytes ws p ++ cut ∧ (∀ b ∈ cut, b ∈ ws) ∧
    ∀ b, (stripBytes ws p).getLast? = some b → b ∉ ws)

/-! ### Whole messages -/

/-- R157: ENCRYPT of a message, copying the output to the input of an engine with the same key, mode and parameters, then
DECRYPT, gives the message with all its trailing WS bytes lost. In chained mode the message is not empty. -/
def Obligations.MessageComesBackStripped : Prop :=
  ∀ (s : State) (p : List Byte), p.length = s.ilen.toNat → Holds s.ibuf 0 p → p.length + 8 ≤ s.cfg.maxlen →
    (s.cbc = true → 1 ≤ p.length) →
    ∃ t, exec .encrypt s = .next t ∧ ∀ u : State, u.k = s.k → u.cbc = s.cbc → u.cfg = s.cfg → u.ilen = t.olen →
      (∀ a < t.olen.toNat, u.ibuf.read a = t.obuf.read a) →
        ∃ v, exec .decrypt u = .next v ∧ v.err = 0#2 ∧ v.olen.toNat = (stripBytes s.cfg.ws p).length ∧
          Holds v.obuf 0 (stripBytes s.cfg.ws p)

/-- R158: the round trip: a message whose last byte is not in WS comes back exactly, for every key, every IV and every MAXLEN; the
empty message in direct mode only. -/
def Obligations.MessageRoundTrip : Prop :=
  ∀ (s : State) (p : List Byte), p.length = s.ilen.toNat → Holds s.ibuf 0 p → p.length + 8 ≤ s.cfg.maxlen →
    (s.cbc = true → 1 ≤ p.length) → (∀ b, p.getLast? = some b → b ∉ s.cfg.ws) →
    ∃ t, exec .encrypt s = .next t ∧ ∀ u : State, u.k = s.k → u.cbc = s.cbc → u.cfg = s.cfg → u.ilen = t.olen →
      (∀ a < t.olen.toNat, u.ibuf.read a = t.obuf.read a) →
        ∃ v, exec .decrypt u = .next v ∧ v.err = 0#2 ∧ v.olen.toNat = p.length ∧ Holds v.obuf 0 p

/-- R178, R103: the host sequence `setkey` (four writes of KIN and KEYSET), run by five steps, loads the four words. -/
def Obligations.SetkeySequenceLoadsTheKey : Prop :=
  ∀ (s : State) (w : Key) (a b : Word), s.pending = scriptInputs a b (setkey w) →
    ∃ t : State, Host.Core.run Sys2Proof.core 5 s = .next t ∧ t.k = w ∧ t.kin = w ∧ t.err = 0#2 ∧ t.pending = []

/-- R178, R102, R172: the host sequence `newengine` (RESET, one write per salt byte, ILEN, KEYSALT), run to its end from any state,
leaves the key derived from the salt, in chained mode; for every salt that fits, the empty one included. -/
def Obligations.NewengineSequenceDerivesTheKey : Prop :=
  ∀ (s : State) (salt : List Byte) (a b : Word), salt.length ≤ s.cfg.maxlen →
    s.pending = scriptInputs a b (newengine salt) →
      ∃ t : State, Host.Core.run Sys2Proof.core (salt.length + 3) s = .next t ∧ t.k = deriveKey salt ∧ t.cbc = true ∧
        t.err = 0#2 ∧ t.ilen.toNat = salt.length ∧ Holds t.ibuf 0 salt ∧ t.pending = []
end

