-- ==== Sys2Proof/Laws/Codec.lean ====
section
/-! SUPPORT. Small facts about the word codec, the block layout, the chaining and the padding functions: lengths, and how the
list functions unfold. -/
namespace Sys2Proof.Machine

@[simp] theorem wordToBytes_length (w : Word) : (wordToBytes w).length = 4 := rfl
@[simp] theorem blockToBytes_length (b : Block) : (blockToBytes b).length = 8 := rfl

@[simp] theorem blocksToBytes_nil : blocksToBytes [] = [] := rfl
@[simp] theorem blocksToBytes_cons (b : Block) (bs : List Block) :
    blocksToBytes (b :: bs) = blockToBytes b ++ blocksToBytes bs := rfl

@[simp] theorem blocksToBytes_length (bs : List Block) : (blocksToBytes bs).length = 8 * bs.length := by
  induction bs with
  | nil => rfl
  | cons b bs ih => rw [blocksToBytes_cons, List.length_append, blockToBytes_length, ih, List.length_cons]; omega

/-- R44: the first 8 bytes are the first block. -/
theorem blocksOf_cons8 (b0 b1 b2 b3 b4 b5 b6 b7 : Byte) (s : List Byte) :
    blocksOf (b0 :: b1 :: b2 :: b3 :: b4 :: b5 :: b6 :: b7 :: s) =
      { y := be32 b0 b1 b2 b3, z := be32 b4 b5 b6 b7 } :: blocksOf s := by
  simp [blocksOf, wordsOf, pairWords]

@[simp] theorem blocksOf_nil : blocksOf [] = [] := by simp [blocksOf, wordsOf, pairWords]

/-- Eight bytes at a time: the way every byte sequence of whole blocks is built. -/
theorem bytes_cases8 (s : List Byte) (h : s.length % 8 = 0) :
    s = [] ∨ ∃ b0 b1 b2 b3 b4 b5 b6 b7 r, s = b0 :: b1 :: b2 :: b3 :: b4 :: b5 :: b6 :: b7 :: r ∧ r.length % 8 = 0 := by
  match s, h with
  | [], _ => exact .inl rfl
  | b0 :: b1 :: b2 :: b3 :: b4 :: b5 :: b6 :: b7 :: r, h =>
    exact .inr ⟨b0, b1, b2, b3, b4, b5, b6, b7, r, rfl, by simp only [List.length_cons] at h; omega⟩
  | [_], h => simp at h
  | [_, _], h => simp at h
  | [_, _, _], h => simp at h
  | [_, _, _, _], h => simp at h
  | [_, _, _, _, _], h => simp at h
  | [_, _, _, _, _, _], h => simp at h
  | [_, _, _, _, _, _, _], h => simp at h

/-- R44: a sequence of 8n bytes has n blocks. -/
theorem blocksOf_length (n : Nat) : ∀ s : List Byte, s.length = 8 * n → (blocksOf s).length = n := by
  induction n with
  | zero => intro s h; rw [List.length_eq_zero_iff.mp h]; rfl
  | succ n ih =>
    intro s h
    rcases bytes_cases8 s (by omega) with rfl | ⟨b0, b1, b2, b3, b4, b5, b6, b7, r, rfl, -⟩
    · simp at h
    · rw [blocksOf_cons8, List.length_cons, ih r (by simp only [List.length_cons] at h; omega)]

@[simp] theorem chainEncrypt_length (k : Key) (ps : List Block) : ∀ c, (chainEncrypt k c ps).length = ps.length := by
  induction ps with
  | nil => intro c; rfl
  | cons p ps ih => intro c; rw [chainEncrypt, List.length_cons, ih, List.length_cons]

@[simp] theorem chainDecrypt_length (k : Key) (cs : List Block) : ∀ v, (chainDecrypt k v cs).length = cs.length := by
  induction cs with
  | nil => intro v; rfl
  | cons c cs ih => intro v; rw [chainDecrypt, List.length_cons, ih, List.length_cons]

/-- R130: the chained stream has one block more than the plaintext, the direct one as many. -/
theorem encryptBlocks_length (k : Key) (cbc : Bool) (iv : Block) (ps : List Block) :
    (encryptBlocks k cbc iv ps).length = ps.length + (if cbc then 1 else 0) := by
  cases cbc <;> simp [encryptBlocks]

/-- R133: the chained plaintext has one block less than the stream, the direct one as many. -/
theorem decryptBlocks_length (k : Key) (cbc : Bool) (cs : List Block) :
    (decryptBlocks k cbc cs).length = cs.length - (if cbc then 1 else 0) := by
  cases cbc
  · simp [decryptBlocks]
  · cases cs <;> simp [decryptBlocks]

theorem encryptStream_length (k : Key) (p : List Byte) (cbc : Bool) (iv : Block) (n : Nat) (h : p.length = 8 * n) :
    (encryptStream k p cbc iv).length = 8 * n + (if cbc then 8 else 0) := by
  rw [encryptStream, blocksToBytes_length, encryptBlocks_length, blocksOf_length n p h]
  cases cbc <;> simp; omega

theorem decryptStream_length (k : Key) (c : List Byte) (cbc : Bool) (n : Nat) (h : c.length = 8 * n) :
    (decryptStream k c cbc).length = 8 * n - (if cbc then 8 else 0) := by
  rw [decryptStream, blocksToBytes_length, decryptBlocks_length, blocksOf_length n c h]
  cases cbc <;> simp; omega

/-- R150: 0 to 7 pad bytes, up to the least multiple of 8. -/
theorem padCount_spec (n : Nat) : padCount n < 8 ∧ (n + padCount n) % 8 = 0 := by
  unfold padCount; omega

end Sys2Proof.Machine
end

