-- ==== Sys2Proof/Laws/State.lean ====
section
/-! SUPPORT. One lemma per field per update of State, true by rfl, so that no later proof unfolds an update. -/
namespace Sys2Proof.Machine

variable (s : State)

/-! ### setStatus: `STATUS <- w` -/

@[simp] theorem State.setStatus_k (w : Word) : (s.setStatus w).k = s.k := rfl
@[simp] theorem State.setStatus_kin (w : Word) : (s.setStatus w).kin = s.kin := rfl
@[simp] theorem State.setStatus_y (w : Word) : (s.setStatus w).y = s.y := rfl
@[simp] theorem State.setStatus_z (w : Word) : (s.setStatus w).z = s.z := rfl
@[simp] theorem State.setStatus_status (w : Word) : (s.setStatus w).status = w := rfl
@[simp] theorem State.setStatus_ctrl (w : Word) : (s.setStatus w).ctrl = s.ctrl := rfl
@[simp] theorem State.setStatus_ilen (w : Word) : (s.setStatus w).ilen = s.ilen := rfl
@[simp] theorem State.setStatus_olen (w : Word) : (s.setStatus w).olen = s.olen := rfl
@[simp] theorem State.setStatus_tsec (w : Word) : (s.setStatus w).tsec = s.tsec := rfl
@[simp] theorem State.setStatus_tsub (w : Word) : (s.setStatus w).tsub = s.tsub := rfl
@[simp] theorem State.setStatus_ibuf (w : Word) : (s.setStatus w).ibuf = s.ibuf := rfl
@[simp] theorem State.setStatus_obuf (w : Word) : (s.setStatus w).obuf = s.obuf := rfl
@[simp] theorem State.setStatus_cfg (w : Word) : (s.setStatus w).cfg = s.cfg := rfl
@[simp] theorem State.setStatus_pending (w : Word) : (s.setStatus w).pending = s.pending := rfl
@[simp] theorem State.setStatus_observed (w : Word) : (s.setStatus w).observed = s.observed := rfl
@[simp] theorem State.setStatus_draws (w : Word) : (s.setStatus w).draws = s.draws := rfl

/-! ### setErr: `STATUS.ERR <- e` -/

@[simp] theorem State.setErr_k (e : ErrCode) : (s.setErr e).k = s.k := rfl
@[simp] theorem State.setErr_kin (e : ErrCode) : (s.setErr e).kin = s.kin := rfl
@[simp] theorem State.setErr_y (e : ErrCode) : (s.setErr e).y = s.y := rfl
@[simp] theorem State.setErr_z (e : ErrCode) : (s.setErr e).z = s.z := rfl
@[simp] theorem State.setErr_status (e : ErrCode) : (s.setErr e).status = statusWithErr s.status e := rfl
@[simp] theorem State.setErr_ctrl (e : ErrCode) : (s.setErr e).ctrl = s.ctrl := rfl
@[simp] theorem State.setErr_ilen (e : ErrCode) : (s.setErr e).ilen = s.ilen := rfl
@[simp] theorem State.setErr_olen (e : ErrCode) : (s.setErr e).olen = s.olen := rfl
@[simp] theorem State.setErr_tsec (e : ErrCode) : (s.setErr e).tsec = s.tsec := rfl
@[simp] theorem State.setErr_tsub (e : ErrCode) : (s.setErr e).tsub = s.tsub := rfl
@[simp] theorem State.setErr_ibuf (e : ErrCode) : (s.setErr e).ibuf = s.ibuf := rfl
@[simp] theorem State.setErr_obuf (e : ErrCode) : (s.setErr e).obuf = s.obuf := rfl
@[simp] theorem State.setErr_cfg (e : ErrCode) : (s.setErr e).cfg = s.cfg := rfl
@[simp] theorem State.setErr_pending (e : ErrCode) : (s.setErr e).pending = s.pending := rfl
@[simp] theorem State.setErr_observed (e : ErrCode) : (s.setErr e).observed = s.observed := rfl
@[simp] theorem State.setErr_draws (e : ErrCode) : (s.setErr e).draws = s.draws := rfl

/-! ### setKey: `K <- v` -/

@[simp] theorem State.setKey_k (v : Key) : (s.setKey v).k = v := rfl
@[simp] theorem State.setKey_kin (v : Key) : (s.setKey v).kin = s.kin := rfl
@[simp] theorem State.setKey_y (v : Key) : (s.setKey v).y = s.y := rfl
@[simp] theorem State.setKey_z (v : Key) : (s.setKey v).z = s.z := rfl
@[simp] theorem State.setKey_status (v : Key) : (s.setKey v).status = s.status := rfl
@[simp] theorem State.setKey_ctrl (v : Key) : (s.setKey v).ctrl = s.ctrl := rfl
@[simp] theorem State.setKey_ilen (v : Key) : (s.setKey v).ilen = s.ilen := rfl
@[simp] theorem State.setKey_olen (v : Key) : (s.setKey v).olen = s.olen := rfl
@[simp] theorem State.setKey_tsec (v : Key) : (s.setKey v).tsec = s.tsec := rfl
@[simp] theorem State.setKey_tsub (v : Key) : (s.setKey v).tsub = s.tsub := rfl
@[simp] theorem State.setKey_ibuf (v : Key) : (s.setKey v).ibuf = s.ibuf := rfl
@[simp] theorem State.setKey_obuf (v : Key) : (s.setKey v).obuf = s.obuf := rfl
@[simp] theorem State.setKey_cfg (v : Key) : (s.setKey v).cfg = s.cfg := rfl
@[simp] theorem State.setKey_pending (v : Key) : (s.setKey v).pending = s.pending := rfl
@[simp] theorem State.setKey_observed (v : Key) : (s.setKey v).observed = s.observed := rfl
@[simp] theorem State.setKey_draws (v : Key) : (s.setKey v).draws = s.draws := rfl

/-! ### setBlock: `(Y, Z) <- b` -/

@[simp] theorem State.setBlock_k (b : Block) : (s.setBlock b).k = s.k := rfl
@[simp] theorem State.setBlock_kin (b : Block) : (s.setBlock b).kin = s.kin := rfl
@[simp] theorem State.setBlock_y (b : Block) : (s.setBlock b).y = b.y := rfl
@[simp] theorem State.setBlock_z (b : Block) : (s.setBlock b).z = b.z := rfl
@[simp] theorem State.setBlock_status (b : Block) : (s.setBlock b).status = s.status := rfl
@[simp] theorem State.setBlock_ctrl (b : Block) : (s.setBlock b).ctrl = s.ctrl := rfl
@[simp] theorem State.setBlock_ilen (b : Block) : (s.setBlock b).ilen = s.ilen := rfl
@[simp] theorem State.setBlock_olen (b : Block) : (s.setBlock b).olen = s.olen := rfl
@[simp] theorem State.setBlock_tsec (b : Block) : (s.setBlock b).tsec = s.tsec := rfl
@[simp] theorem State.setBlock_tsub (b : Block) : (s.setBlock b).tsub = s.tsub := rfl
@[simp] theorem State.setBlock_ibuf (b : Block) : (s.setBlock b).ibuf = s.ibuf := rfl
@[simp] theorem State.setBlock_obuf (b : Block) : (s.setBlock b).obuf = s.obuf := rfl
@[simp] theorem State.setBlock_cfg (b : Block) : (s.setBlock b).cfg = s.cfg := rfl
@[simp] theorem State.setBlock_pending (b : Block) : (s.setBlock b).pending = s.pending := rfl
@[simp] theorem State.setBlock_observed (b : Block) : (s.setBlock b).observed = s.observed := rfl
@[simp] theorem State.setBlock_draws (b : Block) : (s.setBlock b).draws = s.draws := rfl

/-! ### extendInput: appending to the input -/

@[simp] theorem State.extendInput_k (bs : List Byte) : (s.extendInput bs).k = s.k := rfl
@[simp] theorem State.extendInput_kin (bs : List Byte) : (s.extendInput bs).kin = s.kin := rfl
@[simp] theorem State.extendInput_y (bs : List Byte) : (s.extendInput bs).y = s.y := rfl
@[simp] theorem State.extendInput_z (bs : List Byte) : (s.extendInput bs).z = s.z := rfl
@[simp] theorem State.extendInput_status (bs : List Byte) : (s.extendInput bs).status = s.status := rfl
@[simp] theorem State.extendInput_ctrl (bs : List Byte) : (s.extendInput bs).ctrl = s.ctrl := rfl
@[simp] theorem State.extendInput_ilen (bs : List Byte) : (s.extendInput bs).ilen = BitVec.ofNat 32 (s.ilen.toNat + bs.length) := rfl
@[simp] theorem State.extendInput_olen (bs : List Byte) : (s.extendInput bs).olen = s.olen := rfl
@[simp] theorem State.extendInput_tsec (bs : List Byte) : (s.extendInput bs).tsec = s.tsec := rfl
@[simp] theorem State.extendInput_tsub (bs : List Byte) : (s.extendInput bs).tsub = s.tsub := rfl
@[simp] theorem State.extendInput_ibuf (bs : List Byte) : (s.extendInput bs).ibuf = s.ibuf.writeBytes s.ilen.toNat bs := rfl
@[simp] theorem State.extendInput_obuf (bs : List Byte) : (s.extendInput bs).obuf = s.obuf := rfl
@[simp] theorem State.extendInput_cfg (bs : List Byte) : (s.extendInput bs).cfg = s.cfg := rfl
@[simp] theorem State.extendInput_pending (bs : List Byte) : (s.extendInput bs).pending = s.pending := rfl
@[simp] theorem State.extendInput_observed (bs : List Byte) : (s.extendInput bs).observed = s.observed := rfl
@[simp] theorem State.extendInput_draws (bs : List Byte) : (s.extendInput bs).draws = s.draws := rfl

/-! ### setOutput: storing the output -/

@[simp] theorem State.setOutput_k (bs : List Byte) : (s.setOutput bs).k = s.k := rfl
@[simp] theorem State.setOutput_kin (bs : List Byte) : (s.setOutput bs).kin = s.kin := rfl
@[simp] theorem State.setOutput_y (bs : List Byte) : (s.setOutput bs).y = s.y := rfl
@[simp] theorem State.setOutput_z (bs : List Byte) : (s.setOutput bs).z = s.z := rfl
@[simp] theorem State.setOutput_status (bs : List Byte) : (s.setOutput bs).status = s.status := rfl
@[simp] theorem State.setOutput_ctrl (bs : List Byte) : (s.setOutput bs).ctrl = s.ctrl := rfl
@[simp] theorem State.setOutput_ilen (bs : List Byte) : (s.setOutput bs).ilen = s.ilen := rfl
@[simp] theorem State.setOutput_olen (bs : List Byte) : (s.setOutput bs).olen = BitVec.ofNat 32 bs.length := rfl
@[simp] theorem State.setOutput_tsec (bs : List Byte) : (s.setOutput bs).tsec = s.tsec := rfl
@[simp] theorem State.setOutput_tsub (bs : List Byte) : (s.setOutput bs).tsub = s.tsub := rfl
@[simp] theorem State.setOutput_ibuf (bs : List Byte) : (s.setOutput bs).ibuf = s.ibuf := rfl
@[simp] theorem State.setOutput_obuf (bs : List Byte) : (s.setOutput bs).obuf = s.obuf.writeBytes 0 bs := rfl
@[simp] theorem State.setOutput_cfg (bs : List Byte) : (s.setOutput bs).cfg = s.cfg := rfl
@[simp] theorem State.setOutput_pending (bs : List Byte) : (s.setOutput bs).pending = s.pending := rfl
@[simp] theorem State.setOutput_observed (bs : List Byte) : (s.setOutput bs).observed = s.observed := rfl
@[simp] theorem State.setOutput_draws (bs : List Byte) : (s.setOutput bs).draws = s.draws := rfl

/-! ### setOlen: `OLEN <- n` -/

@[simp] theorem State.setOlen_k (n : Nat) : (s.setOlen n).k = s.k := rfl
@[simp] theorem State.setOlen_kin (n : Nat) : (s.setOlen n).kin = s.kin := rfl
@[simp] theorem State.setOlen_y (n : Nat) : (s.setOlen n).y = s.y := rfl
@[simp] theorem State.setOlen_z (n : Nat) : (s.setOlen n).z = s.z := rfl
@[simp] theorem State.setOlen_status (n : Nat) : (s.setOlen n).status = s.status := rfl
@[simp] theorem State.setOlen_ctrl (n : Nat) : (s.setOlen n).ctrl = s.ctrl := rfl
@[simp] theorem State.setOlen_ilen (n : Nat) : (s.setOlen n).ilen = s.ilen := rfl
@[simp] theorem State.setOlen_olen (n : Nat) : (s.setOlen n).olen = BitVec.ofNat 32 n := rfl
@[simp] theorem State.setOlen_tsec (n : Nat) : (s.setOlen n).tsec = s.tsec := rfl
@[simp] theorem State.setOlen_tsub (n : Nat) : (s.setOlen n).tsub = s.tsub := rfl
@[simp] theorem State.setOlen_ibuf (n : Nat) : (s.setOlen n).ibuf = s.ibuf := rfl
@[simp] theorem State.setOlen_obuf (n : Nat) : (s.setOlen n).obuf = s.obuf := rfl
@[simp] theorem State.setOlen_cfg (n : Nat) : (s.setOlen n).cfg = s.cfg := rfl
@[simp] theorem State.setOlen_pending (n : Nat) : (s.setOlen n).pending = s.pending := rfl
@[simp] theorem State.setOlen_observed (n : Nat) : (s.setOlen n).observed = s.observed := rfl
@[simp] theorem State.setOlen_draws (n : Nat) : (s.setOlen n).draws = s.draws := rfl

/-! ### raise: R194, raising an error -/

@[simp] theorem State.raise_k (e : ErrCode) : (s.raise e).k = s.k := rfl
@[simp] theorem State.raise_kin (e : ErrCode) : (s.raise e).kin = s.kin := rfl
@[simp] theorem State.raise_y (e : ErrCode) : (s.raise e).y = s.y := rfl
@[simp] theorem State.raise_z (e : ErrCode) : (s.raise e).z = s.z := rfl
@[simp] theorem State.raise_status (e : ErrCode) : (s.raise e).status = statusWithErr s.status e := rfl
@[simp] theorem State.raise_ctrl (e : ErrCode) : (s.raise e).ctrl = s.ctrl := rfl
@[simp] theorem State.raise_ilen (e : ErrCode) : (s.raise e).ilen = s.ilen := rfl
@[simp] theorem State.raise_olen (e : ErrCode) : (s.raise e).olen = 0 := rfl
@[simp] theorem State.raise_tsec (e : ErrCode) : (s.raise e).tsec = s.tsec := rfl
@[simp] theorem State.raise_tsub (e : ErrCode) : (s.raise e).tsub = s.tsub := rfl
@[simp] theorem State.raise_ibuf (e : ErrCode) : (s.raise e).ibuf = s.ibuf := rfl
@[simp] theorem State.raise_obuf (e : ErrCode) : (s.raise e).obuf = s.obuf := rfl
@[simp] theorem State.raise_cfg (e : ErrCode) : (s.raise e).cfg = s.cfg := rfl
@[simp] theorem State.raise_pending (e : ErrCode) : (s.raise e).pending = s.pending := rfl
@[simp] theorem State.raise_observed (e : ErrCode) : (s.raise e).observed = s.observed := rfl
@[simp] theorem State.raise_draws (e : ErrCode) : (s.raise e).draws = s.draws := rfl

/-! ### illegal: R195, an illegal request -/

@[simp] theorem State.illegal_k : (s.illegal).k = s.k := rfl
@[simp] theorem State.illegal_kin : (s.illegal).kin = s.kin := rfl
@[simp] theorem State.illegal_y : (s.illegal).y = s.y := rfl
@[simp] theorem State.illegal_z : (s.illegal).z = s.z := rfl
@[simp] theorem State.illegal_status : (s.illegal).status = statusWithErr s.status .illegalRequest := rfl
@[simp] theorem State.illegal_ctrl : (s.illegal).ctrl = s.ctrl := rfl
@[simp] theorem State.illegal_ilen : (s.illegal).ilen = s.ilen := rfl
@[simp] theorem State.illegal_olen : (s.illegal).olen = s.olen := rfl
@[simp] theorem State.illegal_tsec : (s.illegal).tsec = s.tsec := rfl
@[simp] theorem State.illegal_tsub : (s.illegal).tsub = s.tsub := rfl
@[simp] theorem State.illegal_ibuf : (s.illegal).ibuf = s.ibuf := rfl
@[simp] theorem State.illegal_obuf : (s.illegal).obuf = s.obuf := rfl
@[simp] theorem State.illegal_cfg : (s.illegal).cfg = s.cfg := rfl
@[simp] theorem State.illegal_pending : (s.illegal).pending = s.pending := rfl
@[simp] theorem State.illegal_observed : (s.illegal).observed = s.observed := rfl
@[simp] theorem State.illegal_draws : (s.illegal).draws = s.draws := rfl

/-! ### resetEngine: R32, the reset values -/

@[simp] theorem State.resetEngine_k : (s.resetEngine).k = zeroKey := rfl
@[simp] theorem State.resetEngine_kin : (s.resetEngine).kin = zeroKey := rfl
@[simp] theorem State.resetEngine_y : (s.resetEngine).y = 0 := rfl
@[simp] theorem State.resetEngine_z : (s.resetEngine).z = 0 := rfl
@[simp] theorem State.resetEngine_status : (s.resetEngine).status = 0 := rfl
@[simp] theorem State.resetEngine_ctrl : (s.resetEngine).ctrl = 1 := rfl
@[simp] theorem State.resetEngine_ilen : (s.resetEngine).ilen = 0 := rfl
@[simp] theorem State.resetEngine_olen : (s.resetEngine).olen = 0 := rfl
@[simp] theorem State.resetEngine_tsec : (s.resetEngine).tsec = s.tsec := rfl
@[simp] theorem State.resetEngine_tsub : (s.resetEngine).tsub = s.tsub := rfl
@[simp] theorem State.resetEngine_ibuf : (s.resetEngine).ibuf = [] := rfl
@[simp] theorem State.resetEngine_obuf : (s.resetEngine).obuf = [] := rfl
@[simp] theorem State.resetEngine_cfg : (s.resetEngine).cfg = s.cfg := rfl
@[simp] theorem State.resetEngine_pending : (s.resetEngine).pending = s.pending := rfl
@[simp] theorem State.resetEngine_observed : (s.resetEngine).observed = s.observed := rfl
@[simp] theorem State.resetEngine_draws : (s.resetEngine).draws = s.draws := rfl

/-! ### withPorts: the ports' values -/

@[simp] theorem State.withPorts_k (a b : Word) : (s.withPorts a b).k = s.k := rfl
@[simp] theorem State.withPorts_kin (a b : Word) : (s.withPorts a b).kin = s.kin := rfl
@[simp] theorem State.withPorts_y (a b : Word) : (s.withPorts a b).y = s.y := rfl
@[simp] theorem State.withPorts_z (a b : Word) : (s.withPorts a b).z = s.z := rfl
@[simp] theorem State.withPorts_status (a b : Word) : (s.withPorts a b).status = s.status := rfl
@[simp] theorem State.withPorts_ctrl (a b : Word) : (s.withPorts a b).ctrl = s.ctrl := rfl
@[simp] theorem State.withPorts_ilen (a b : Word) : (s.withPorts a b).ilen = s.ilen := rfl
@[simp] theorem State.withPorts_olen (a b : Word) : (s.withPorts a b).olen = s.olen := rfl
@[simp] theorem State.withPorts_tsec (a b : Word) : (s.withPorts a b).tsec = a := rfl
@[simp] theorem State.withPorts_tsub (a b : Word) : (s.withPorts a b).tsub = b := rfl
@[simp] theorem State.withPorts_ibuf (a b : Word) : (s.withPorts a b).ibuf = s.ibuf := rfl
@[simp] theorem State.withPorts_obuf (a b : Word) : (s.withPorts a b).obuf = s.obuf := rfl
@[simp] theorem State.withPorts_cfg (a b : Word) : (s.withPorts a b).cfg = s.cfg := rfl
@[simp] theorem State.withPorts_pending (a b : Word) : (s.withPorts a b).pending = s.pending := rfl
@[simp] theorem State.withPorts_observed (a b : Word) : (s.withPorts a b).observed = s.observed := rfl
@[simp] theorem State.withPorts_draws (a b : Word) : (s.withPorts a b).draws = s.draws := rfl

end Sys2Proof.Machine
end

