-- ==== Sys2Proof/Laws/Flags.lean ====
section
/-! SUPPORT. The fields of STATUS and CTRL after each of the writes of Machine/Flags.lean. -/
namespace Sys2Proof.Machine

/-- Every bit of STATUS after `ERR` is written. -/
theorem statusWithErr_getLsbD (w : Word) (e : ErrCode) (i : Nat) :
    (statusWithErr w e).getLsbD i = if i < 2 then e.code.getLsbD i else w.getLsbD i := by
  have h : (statusWithErr w e).getLsbD i = _ := BitVec.getLsbD_append (x := w.extractLsb' 2 30) (y := e.code) (i := i)
  rw [h]
  split
  · rfl
  · rw [BitVec.getLsbD_extractLsb', show 2 + (i - 2) = i by omega]
    by_cases hi : i < 32
    · simp [show i - 2 < 30 by omega]
    · simp [show ¬ i - 2 < 30 by omega, BitVec.getLsbD_of_ge w i (by omega)]

/-- Every bit of STATUS after SELFTEST. -/
theorem statusAfterSelftest_getLsbD (w : Word) (p : Bool) (i : Nat) :
    (statusAfterSelftest w p).getLsbD i =
      if i < 2 then false else if i = 2 then true else if i = 3 then p else w.getLsbD i := by
  have h : (statusAfterSelftest w p).getLsbD i = _ :=
    BitVec.getLsbD_append (x := w.extractLsb' 4 28 ++ BitVec.ofBool p ++ 1#1) (y := 0#2) (i := i)
  rw [h, BitVec.getLsbD_append, BitVec.getLsbD_append, BitVec.getLsbD_extractLsb']
  by_cases h2 : i < 2
  · simp [h2]
  · by_cases h3 : i = 2
    · subst h3; simp
    · by_cases h4 : i = 3
      · subst h4; simp
      · rw [if_neg h2, if_neg (by omega), if_neg (by omega), if_neg h2, if_neg h3, if_neg h4,
          show 4 + (i - 2 - 1 - 1) = i by omega]
        by_cases hi : i < 32
        · simp [show i - 2 - 1 - 1 < 28 by omega]
        · simp [show ¬ i - 2 - 1 - 1 < 28 by omega, BitVec.getLsbD_of_ge w i (by omega)]

theorem statusWithErr_err (w : Word) (e : ErrCode) : (statusWithErr w e).extractLsb' 0 2 = e.code := by
  apply BitVec.eq_of_getLsbD_eq
  intro i hi
  rw [BitVec.getLsbD_extractLsb', statusWithErr_getLsbD]
  simp [hi]

theorem statusWithErr_reserved (w : Word) (e : ErrCode) :
    (statusWithErr w e).extractLsb' 4 28 = w.extractLsb' 4 28 := by
  apply BitVec.eq_of_getLsbD_eq
  intro i hi
  rw [BitVec.getLsbD_extractLsb', statusWithErr_getLsbD, if_neg (by omega), BitVec.getLsbD_extractLsb']

theorem statusAfterSelftest_err (w : Word) (p : Bool) : (statusAfterSelftest w p).extractLsb' 0 2 = 0#2 := by
  apply BitVec.eq_of_getLsbD_eq
  intro i hi
  rw [BitVec.getLsbD_extractLsb', statusAfterSelftest_getLsbD]
  simp [hi]

theorem statusAfterSelftest_reserved (w : Word) (p : Bool) :
    (statusAfterSelftest w p).extractLsb' 4 28 = w.extractLsb' 4 28 := by
  apply BitVec.eq_of_getLsbD_eq
  intro i hi
  rw [BitVec.getLsbD_extractLsb', statusAfterSelftest_getLsbD, if_neg (by omega), if_neg (by omega), if_neg (by omega),
    BitVec.getLsbD_extractLsb']

/-- R190: `ERR` after a command or an illegal access wrote it. -/
@[simp] theorem State.setErr_err (s : State) (e : ErrCode) : (s.setErr e).err = e.code := statusWithErr_err s.status e
@[simp] theorem State.setErr_stdone (s : State) (e : ErrCode) : (s.setErr e).stdone = s.stdone :=
  statusWithErr_getLsbD s.status e 2
@[simp] theorem State.setErr_stpass (s : State) (e : ErrCode) : (s.setErr e).stpass = s.stpass :=
  statusWithErr_getLsbD s.status e 3
@[simp] theorem State.setErr_statusReserved (s : State) (e : ErrCode) :
    (s.setErr e).statusReserved = s.statusReserved := statusWithErr_reserved s.status e

@[simp] theorem State.raise_err (s : State) (e : ErrCode) : (s.raise e).err = e.code := statusWithErr_err s.status e
@[simp] theorem State.illegal_err (s : State) : s.illegal.err = 3#2 := statusWithErr_err s.status .illegalRequest

theorem setErr_sameSelftestBits (s u : State) (e : ErrCode) (h : u.status = s.status) : SameSelftestBits s (u.setErr e) := by
  refine ⟨?_, ?_, ?_⟩
  · rw [State.setErr_stdone, State.stdone, State.stdone, h]
  · rw [State.setErr_stpass, State.stpass, State.stpass, h]
  · rw [State.setErr_statusReserved, State.statusReserved, State.statusReserved, h]

/-- R175: `CTRL.CBC <- v[0]`. -/
theorem ctrlWritten_cbc (v : Word) : (ctrlWritten v).getLsbD 0 = v.getLsbD 0 := by simp [ctrlWritten]

/-- R23: the reserved bits of CTRL stay 0 whatever is written. -/
theorem ctrlWritten_reserved (v : Word) : (ctrlWritten v).extractLsb' 1 31 = 0 := by
  ext i hi
  simp [ctrlWritten]

end Sys2Proof.Machine
end

