-- ==== Sys2Proof/Laws/Memory.lean ====
section
/-! SUPPORT. What the buffer operations of Machine/Ops.lean do, said once: what each reads afterwards, and that each keeps the
canonical form and the size of a buffer. -/
namespace Sys2Proof.Machine

@[simp] theorem Memory.read_nil (a : Nat) : Memory.read [] a = none := rfl

/-- A read after a write: the byte written, at its offset; what was there before, everywhere else. -/
theorem Memory.read_write (m : Memory) (a : Nat) (b : Byte) (x : Nat) :
    (m.write a b).read x = if x = a then some b else m.read x := by
  induction m with
  | nil => simp [Memory.write, Memory.read, Memory.unlisted]
  | cons c m ih =>
    obtain ⟨a', b'⟩ := c
    unfold Memory.write
    split
    · simp only [Memory.read]
    · split
      · subst_vars
        simp only [Memory.read]
        split <;> simp_all
      · simp only [Memory.read, ih]
        split
        · split <;> simp_all
        · rfl

/-- A read after a multi-byte write. -/
theorem Memory.read_writeBytes (bs : List Byte) : ∀ (m : Memory) (a x : Nat),
    (m.writeBytes a bs).read x = if a ≤ x ∧ x < a + bs.length then bs[x - a]? else m.read x := by
  induction bs with
  | nil => intro m a x; simp [Memory.writeBytes]
  | cons b bs ih =>
    intro m a x
    simp only [Memory.writeBytes, ih, Memory.read_write, List.length_cons]
    by_cases h1 : x = a
    · subst h1; simp
    · by_cases h2 : a + 1 ≤ x ∧ x < a + 1 + bs.length
      · rw [if_pos h2, if_pos (by omega)]
        obtain ⟨d, rfl⟩ : ∃ d, x = a + 1 + d := ⟨x - (a + 1), by omega⟩
        rw [show a + 1 + d - (a + 1) = d by omega, show a + 1 + d - a = d + 1 by omega]
        simp
      · rw [if_neg h2, if_neg h1, if_neg (by omega)]

theorem Memory.read_writeBytes_outside (m : Memory) (a : Nat) (bs : List Byte) :
    SameBytesOutside m (m.writeBytes a bs) a bs.length := by
  intro x hx
  rw [Memory.read_writeBytes, if_neg (by omega)]

theorem Memory.holds_writeBytes (m : Memory) (a : Nat) (bs : List Byte) : Holds (m.writeBytes a bs) a bs := by
  intro i hi
  rw [Memory.read_writeBytes, if_pos (by omega), show a + i - a = i by omega]

/-- R42: `MemRead` answers exactly when every byte it reads holds a value, and then with those bytes. -/
theorem Memory.readBytes_eq_some_iff (n : Nat) : ∀ (m : Memory) (a : Nat) (bs : List Byte),
    m.readBytes a n = some bs ↔ bs.length = n ∧ Holds m a bs := by
  induction n with
  | zero =>
    intro m a bs
    simp only [Memory.readBytes, Option.some.injEq]
    constructor
    · rintro rfl; exact ⟨rfl, fun i hi => by simp at hi⟩
    · rintro ⟨h, -⟩; exact (List.length_eq_zero_iff.mp h).symm
  | succ n ih =>
    intro m a bs
    simp only [Memory.readBytes]
    constructor
    · intro h
      split at h
      · rename_i b bs' hb hbs
        obtain rfl : b :: bs' = bs := by simpa using h
        obtain ⟨hl, hh⟩ := (ih m (a + 1) bs').mp hbs
        refine ⟨by simp [hl], fun i hi => ?_⟩
        cases i with
        | zero => simpa using hb
        | succ i =>
          have := hh i (by simpa using hi)
          rw [show a + 1 + i = a + (i + 1) by omega] at this
          simpa using this
      · cases h
    · rintro ⟨hl, hh⟩
      cases bs with
      | nil => simp at hl
      | cons b bs =>
        have hb : m.read a = some b := by simpa using hh 0 (by simp)
        have hbs : m.readBytes (a + 1) n = some bs := by
          refine (ih m (a + 1) bs).mpr ⟨by simpa using hl, fun i hi => ?_⟩
          have := hh (i + 1) (by simpa using hi)
          rw [show a + (i + 1) = a + 1 + i by omega] at this
          simpa using this
        simp [hb, hbs]

/-- R222: `MemRead` has no answer exactly when one of its bytes holds no value. -/
theorem Memory.readBytes_eq_none_iff (n : Nat) : ∀ (m : Memory) (a : Nat),
    m.readBytes a n = none ↔ ∃ i < n, m.read (a + i) = none := by
  induction n with
  | zero => intro m a; simp [Memory.readBytes]
  | succ n ih =>
    intro m a
    simp only [Memory.readBytes]
    constructor
    · intro h
      cases hb : m.read a with
      | none => exact ⟨0, by omega, by simpa using hb⟩
      | some b =>
        cases hbs : m.readBytes (a + 1) n with
        | none =>
          obtain ⟨i, hi, hr⟩ := (ih m (a + 1)).mp hbs
          exact ⟨i + 1, by omega, by rw [show a + (i + 1) = a + 1 + i by omega]; exact hr⟩
        | some bs => simp [hb, hbs] at h
    · rintro ⟨i, hi, hr⟩
      cases i with
      | zero => rw [Nat.add_zero] at hr; simp [hr]
      | succ i =>
        have : m.readBytes (a + 1) n = none :=
          (ih m (a + 1)).mpr ⟨i, by omega, by rw [show a + 1 + i = a + (i + 1) by omega]; exact hr⟩
        rw [this]
        split <;> simp_all

/-- When every byte is written, `MemRead` answers. -/
theorem Memory.readBytes_of_written (m : Memory) (a n : Nat) (h : ∀ i < n, (m.read (a + i)).isSome = true) :
    ∃ bs, m.readBytes a n = some bs ∧ bs.length = n ∧ Holds m a bs := by
  cases hr : m.readBytes a n with
  | none =>
    obtain ⟨i, hi, hn⟩ := (Memory.readBytes_eq_none_iff n m a).mp hr
    simpa [hn] using h i hi
  | some bs => exact ⟨bs, rfl, (Memory.readBytes_eq_some_iff n m a bs).mp hr⟩

theorem Memory.mem_write {m : Memory} {a : Nat} {b : Byte} {c : Host.Cell} (h : c ∈ m.write a b) : c = (a, b) ∨ c ∈ m := by
  induction m with
  | nil => simpa [Memory.write] using h
  | cons d m ih =>
    obtain ⟨a', b'⟩ := d
    unfold Memory.write at h
    split at h
    · simpa using h
    · split at h
      · simp only [List.mem_cons] at h ⊢; tauto
      · simp only [List.mem_cons] at h ⊢
        rcases h with h | h
        · exact .inr (.inl h)
        · exact (ih h).imp_right .inr

/-- Every write keeps the canonical form. -/
theorem Memory.wf_write {m : Memory} (a : Nat) (b : Byte) (h : m.wf) : (m.write a b).wf := by
  induction m with
  | nil => simp [Memory.wf, Memory.write]
  | cons d m ih =>
    obtain ⟨a', b'⟩ := d
    obtain ⟨hd, hm⟩ := List.pairwise_cons.mp h
    unfold Memory.write
    split
    · rename_i hlt
      refine List.pairwise_cons.mpr ⟨fun c hc => ?_, h⟩
      rcases List.mem_cons.mp hc with rfl | hc
      · exact hlt
      · exact Nat.lt_trans hlt (hd c hc)
    · split
      · subst_vars
        exact List.pairwise_cons.mpr ⟨hd, hm⟩
      · refine List.pairwise_cons.mpr ⟨fun c hc => ?_, ih hm⟩
        rcases Memory.mem_write hc with rfl | hc
        · simp only; omega
        · exact hd c hc

theorem Memory.wf_writeBytes (bs : List Byte) : ∀ {m : Memory} (a : Nat), m.wf → (m.writeBytes a bs).wf := by
  induction bs with
  | nil => intro m a h; exact h
  | cons b bs ih => intro m a h; exact ih (a + 1) (Memory.wf_write a b h)

/-- A write below the size of a buffer keeps every offset below it. -/
theorem FitsBelow.write {m : Memory} {size : Nat} (h : FitsBelow m size) {a : Nat} (ha : a < size) (b : Byte) :
    FitsBelow (m.write a b) size := by
  intro c hc
  rcases Memory.mem_write hc with rfl | hc
  · exact ha
  · exact h c hc

theorem FitsBelow.writeBytes (bs : List Byte) : ∀ {m : Memory} {size a : Nat}, FitsBelow m size → a + bs.length ≤ size →
    FitsBelow (m.writeBytes a bs) size := by
  induction bs with
  | nil => intro m size a h _; exact h
  | cons b bs ih =>
    intro m size a h ha
    simp only [List.length_cons] at ha
    exact ih (h.write (by omega) b) (by omega)

/-- Two canonical buffers that read the same everywhere are equal data. -/
theorem Memory.read_eq_none_of_lt {m : Memory} {a : Nat} (h : ∀ c ∈ m, a < c.1) : m.read a = none := by
  induction m with
  | nil => rfl
  | cons d m ih =>
    obtain ⟨a', b'⟩ := d
    have := h (a', b') (by simp)
    simp only at this
    rw [Memory.read, if_neg (by omega)]
    exact ih fun c hc => h c (List.mem_cons_of_mem _ hc)

theorem Memory.ext_of_wf : ∀ {m m' : Memory}, m.wf → m'.wf → SameBytes m m' → m = m' := by
  intro m
  induction m with
  | nil =>
    intro m' _ _ h
    cases m' with
    | nil => rfl
    | cons d m' => have := h d.1; simp [Memory.read, Memory.unlisted] at this
  | cons d m ih =>
    intro m' hm hm' h
    obtain ⟨hd, hw⟩ := List.pairwise_cons.mp hm
    cases m' with
    | nil => have := h d.1; simp [Memory.read, Memory.unlisted] at this
    | cons d' m' =>
      obtain ⟨hd', hw'⟩ := List.pairwise_cons.mp hm'
      have hkey : d.1 = d'.1 := by
        rcases Nat.lt_trichotomy d.1 d'.1 with hlt | heq | hgt
        · exfalso
          have := h d.1
          rw [Memory.read_eq_none_of_lt (m := d' :: m')] at this
          · simp [Memory.read] at this
          · intro c hc
            rcases List.mem_cons.mp hc with rfl | hc
            · exact hlt
            · exact Nat.lt_trans hlt (hd' c hc)
        · exact heq
        · exfalso
          have := h d'.1
          rw [Memory.read_eq_none_of_lt (m := d :: m)] at this
          · simp [Memory.read] at this
          · intro c hc
            rcases List.mem_cons.mp hc with rfl | hc
            · exact hgt
            · exact Nat.lt_trans hgt (hd c hc)
      have hval : d.2 = d'.2 := by
        have := h d.1
        simp only [Memory.read, hkey, if_true, Option.some.injEq] at this
        exact this.symm
      have hrest : m = m' := by
        refine ih hw hw' fun x => ?_
        by_cases hx : x = d.1
        · subst hx
          rw [Memory.read_eq_none_of_lt hd, Memory.read_eq_none_of_lt (fun c hc => hkey ▸ hd' c hc)]
        · have := h x
          simpa [Memory.read, hx, hkey ▸ hx] using this
      rw [Prod.ext hkey hval, hrest]

end Sys2Proof.Machine
end

