-- ==== Sys2Proof/Laws/Ops.lean ====
section
/-! SUPPORT. What the shared operations of the commands and the bus can answer, said once. -/
namespace Sys2Proof.Machine

variable {s t : State}

/-- The stripping loop, when it answers: the new length is not above the old one, every byte cut off is in WS, and the byte below
the new length, if there is one, is not. -/
theorem stripLoop_spec (ws : List Byte) (m : Memory) : ∀ (n r : Nat), stripLoop ws m n = some r →
    r ≤ n ∧ (∀ a, r ≤ a → a < n → ∃ b, m.read a = some b ∧ inWs ws b = true) ∧
      (r = 0 ∨ ∃ b, m.read (r - 1) = some b ∧ inWs ws b = false) := by
  intro n
  induction n with
  | zero =>
    intro r h
    simp only [stripLoop, Option.some.injEq] at h
    subst h
    exact ⟨le_refl _, fun a _ ha => absurd ha (Nat.not_lt_zero a), .inl rfl⟩
  | succ n ih =>
    intro r h
    rw [stripLoop] at h
    split at h
    · cases h
    · rename_i b hb
      split at h
      · rename_i hw
        obtain ⟨h1, h2, h3⟩ := ih r h
        refine ⟨by omega, fun a ha1 ha2 => ?_, h3⟩
        by_cases ha : a = n
        · subst ha; exact ⟨b, hb, hw⟩
        · exact h2 a ha1 (by omega)
      · rename_i hw
        simp only [Option.some.injEq] at h
        subst h
        exact ⟨le_refl _, fun a ha1 ha2 => by omega, .inr ⟨b, by simpa using hb, by simpa using hw⟩⟩

/-- The stripping loop answers when every byte below the length is written. -/
theorem stripLoop_isSome (ws : List Byte) (m : Memory) : ∀ n, (∀ a < n, (m.read a).isSome = true) →
    ∃ r, stripLoop ws m n = some r := by
  intro n
  induction n with
  | zero => intro _; exact ⟨0, rfl⟩
  | succ n ih =>
    intro h
    obtain ⟨b, hb⟩ := Option.isSome_iff_exists.mp (h n (Nat.lt_succ_self n))
    rw [stripLoop, hb]
    simp only
    split
    · exact ih fun a ha => h a (by omega)
    · exact ⟨n + 1, rfl⟩

/-- STRIP on an output of which every readable byte is written answers a next state. -/
theorem stripOp_next (h : OutputWritten s) : ∃ n, stripLoop s.cfg.ws s.obuf s.olen.toNat = some n ∧
    stripOp s = .next ((s.setOlen n).setErr .ok) := by
  obtain ⟨n, hn⟩ := stripLoop_isSome s.cfg.ws s.obuf s.olen.toNat h
  exact ⟨n, hn, by simp [stripOp, hn]⟩

/-- Inversion of STRIP. -/
theorem stripOp_cases : ∀ {t}, stripOp s = .next t →
    ∃ n, stripLoop s.cfg.ws s.obuf s.olen.toNat = some n ∧ t = (s.setOlen n).setErr .ok := by
  intro t h
  unfold stripOp at h
  split at h
  · cases h
  · rename_i n hn
    exact ⟨n, hn, by simpa using h.symm⟩

/-- Inversion of ENCSTR: it raises, or the whole input is read and the stream stored. -/
theorem encstrOp_cases (h : encstrOp s = .next t) :
    (∃ e, encryptCheck s = some e ∧ t = s.raise e) ∨
    (encryptCheck s = none ∧ ∃ p, inputOperand s = some p ∧
      t = (s.setOutput (encryptStream s.k p s.cbc (ivOperand s))).setErr .ok) := by
  unfold encstrOp at h
  split at h
  · rename_i e he
    exact .inl ⟨e, he, by simpa using h.symm⟩
  · rename_i he
    unfold encryptInput at h
    split at h
    · cases h
    · rename_i p hp
      exact .inr ⟨he, p, hp, by simpa using h.symm⟩

/-- Inversion of the part of DECSTR after its checks. -/
theorem decryptInput_cases (h : decryptInput s = .next t) :
    ∃ c, inputOperand s = some c ∧ t = (s.setOutput (decryptStream s.k c s.cbc)).setErr .ok := by
  unfold decryptInput at h
  split at h
  · cases h
  · rename_i c hc
    exact ⟨c, hc, by simpa using h.symm⟩

/-- Inversion of DECSTR. -/
theorem execDecstr_cases (h : execDecstr s = .next t) :
    (∃ e, decryptCheck s = some e ∧ t = s.raise e) ∨ (decryptCheck s = none ∧ decryptInput s = .next t) := by
  unfold execDecstr at h
  split at h
  · rename_i e he
    exact .inl ⟨e, he, by simpa using h.symm⟩
  · rename_i he
    exact .inr ⟨he, h⟩

/-- Inversion of DECRYPT: it raises, or DECSTR's body and then STRIP run. -/
theorem execDecrypt_cases (h : execDecrypt s = .next t) :
    (∃ e, decryptCheck s = some e ∧ t = s.raise e) ∨
    (decryptCheck s = none ∧ ∃ u, decryptInput s = .next u ∧ stripOp u = .next t) := by
  unfold execDecrypt at h
  split at h
  · rename_i e he
    exact .inl ⟨e, he, by simpa using h.symm⟩
  · rename_i he
    refine .inr ⟨he, ?_⟩
    cases hd : decryptInput s with
    | next u => exact ⟨u, rfl, by simpa [andThen, hd] using h⟩
    | fault r => simp [andThen, hd] at h
    | refused r => simp [andThen, hd] at h

/-- Inversion of KEYSALT. -/
theorem execKeysalt_cases (h : execKeysalt s = .next t) :
    ∃ salt, saltOperand s = some salt ∧ t = (s.setKey (deriveKey salt)).setErr .ok := by
  unfold execKeysalt at h
  split at h
  · cases h
  · rename_i salt hs
    exact ⟨salt, hs, by simpa using h.symm⟩

/-- R151: ILEN after PAD is the next multiple of 8, for a legal ILEN. -/
theorem padOp_ilen (h : s.ilen.toNat + 8 ≤ 2 ^ 32) :
    (padOp s).ilen.toNat = s.ilen.toNat + padCount s.ilen.toNat := by
  have := padCount_spec s.ilen.toNat
  have e : (padOp s).ilen = BitVec.ofNat 32 (s.ilen.toNat + padCount s.ilen.toNat) := by
    simp [padOp]
  rw [e, BitVec.toNat_ofNat, Nat.mod_eq_of_lt (by omega)]

/-- The bytes read as input are as many as ILEN says. -/
theorem inputOperand_length {p : List Byte} (h : inputOperand s = some p) : p.length = s.ilen.toNat :=
  ((Memory.readBytes_eq_some_iff _ _ _ _).mp h).1

/-- R132: ENCSTR raises MalformedInput, or ILEN is a multiple of 8. -/
theorem encryptCheck_cases (s : State) :
    (encryptCheck s = some .malformedInput ∧ s.ilen.toNat % 8 ≠ 0) ∨ (encryptCheck s = none ∧ s.ilen.toNat % 8 = 0) := by
  unfold encryptCheck
  split
  · exact .inl ⟨rfl, ‹_›⟩
  · exact .inr ⟨rfl, by omega⟩

/-- R134, R196: which of the three checks fails first, or that none does. -/
theorem decryptCheck_cases (s : State) :
    (decryptCheck s = some .malformedInput ∧ s.ilen.toNat % 4 ≠ 0) ∨
    (decryptCheck s = some .truncatedInput ∧ s.ilen.toNat % 4 = 0 ∧ s.ilen.toNat % 8 ≠ 0) ∨
    (decryptCheck s = some .truncatedInput ∧ s.ilen.toNat % 8 = 0 ∧ s.cbc = true ∧ s.ilen.toNat / 8 < 2) ∨
    (decryptCheck s = none ∧ s.ilen.toNat % 8 = 0 ∧ (s.cbc = true → 16 ≤ s.ilen.toNat)) := by
  unfold decryptCheck
  split
  · exact .inl ⟨rfl, ‹_›⟩
  · split
    · exact .inr (.inl ⟨rfl, by omega, ‹_›⟩)
    · split
      · rename_i h
        simp only [Bool.and_eq_true, decide_eq_true_eq] at h
        exact .inr (.inr (.inl ⟨rfl, by omega, h.1, h.2⟩))
      · rename_i h
        simp only [Bool.and_eq_true, decide_eq_true_eq, not_and] at h
        exact .inr (.inr (.inr ⟨rfl, by omega, fun hc => by have := h hc; omega⟩))

/-- The bytes a host read returns: as many as its width. -/
theorem drawBytes_length (m : Memory) (n : Nat) : ∀ a d, (drawBytes m a n d).1.length = n := by
  induction n with
  | zero => intro a d; rfl
  | succ n ih =>
    intro a d
    unfold drawBytes
    split <;> simp [ih]

/-- A host read of written bytes draws no free byte and returns the bytes. -/
theorem drawBytes_of_written (m : Memory) (n : Nat) : ∀ a d bs, m.readBytes a n = some bs → drawBytes m a n d = (bs, d) := by
  induction n with
  | zero => intro a d bs h; simp only [Memory.readBytes, Option.some.injEq] at h; subst h; rfl
  | succ n ih =>
    intro a d bs h
    simp only [Memory.readBytes] at h
    split at h
    · rename_i b bs' hb hbs
      obtain rfl : b :: bs' = bs := by simpa using h
      simp [drawBytes, hb, ih (a + 1) d bs' hbs]
    · cases h

/-- What a step does with its input, when it answers a next state. -/
theorem step_cases (h : step s = .next t) :
    (s.pending = [] ∧ t = s) ∨
    (∃ rest, s.pending = .hardwareReset :: rest ∧ t = State.resetEngine { s with pending := rest }) ∨
    (∃ x a b rest r, s.pending = .bus x a b :: rest ∧ transact x (s.taken rest a b) = .next r ∧ t = observe x.rw r) := by
  unfold step takeNext at h
  split at h
  · rename_i hp
    exact .inl ⟨hp, by simpa using h.symm⟩
  · rename_i i rest hp
    cases i with
    | hardwareReset => exact .inr (.inl ⟨rest, hp, by simpa [takeInput] using h.symm⟩)
    | bus x a b =>
      refine .inr (.inr ⟨x, a, b, rest, ?_⟩)
      simp only [takeInput, runTxn] at h
      split at h
      · rename_i r hr
        exact ⟨r, hp, hr, by simpa using h.symm⟩
      · cases h
      · cases h

end Sys2Proof.Machine
end

