-- ==== Sys2Proof/Laws/Bus.lean ====
section
/-! SUPPORT. How transactions find their target, and what a step does with a transaction that completes. -/
namespace Sys2Proof.Machine

/-- The space select of an address is its quotient by 2^30 (R60). -/
theorem space_toNat (x : Txn) : (x.addr.extractLsb' 30 2).toNat = spaceOf x := by
  have := x.addr.isLt
  simp only [BitVec.extractLsb'_toNat, Nat.shiftRight_eq_div_pow, spaceOf]
  omega

/-- The offset of an address is its remainder by 2^30 (R60). -/
theorem offset_eq (x : Txn) : x.offset = offsetOf x := by
  simp [Txn.offset, offsetOf, BitVec.extractLsb'_toNat]

theorem offset_lt (x : Txn) : x.offset < 2 ^ 30 := by
  rw [offset_eq, offsetOf]; exact Nat.mod_lt _ (by decide)

theorem space_eq_reg {x : Txn} (h : spaceOf x = 0) : x.space = .reg := by
  unfold Txn.space; rw [space_toNat, h]; rfl

theorem space_eq_ibuf {x : Txn} (h : spaceOf x = 1) : x.space = .ibuf := by
  unfold Txn.space; rw [space_toNat, h]; rfl

theorem space_eq_obuf {x : Txn} (h : spaceOf x = 2) : x.space = .obuf := by
  unfold Txn.space; rw [space_toNat, h]; rfl

theorem space_eq_reserved {x : Txn} (h : spaceOf x = 3) : x.space = .reserved := by
  unfold Txn.space; rw [space_toNat, h]; rfl

theorem spaceOf_lt (x : Txn) : spaceOf x < 4 := by
  have := x.addr.isLt
  unfold spaceOf; omega

theorem transact_reg {x : Txn} (h : spaceOf x = 0) (s : State) : transact x s = accessReg x s := by
  rw [transact, space_eq_reg h]

theorem transact_ibuf {x : Txn} (h : spaceOf x = 1) (s : State) : transact x s = .next (accessIbuf x s) := by
  rw [transact, space_eq_ibuf h]

theorem transact_obuf {x : Txn} (h : spaceOf x = 2) (s : State) : transact x s = .next (accessObuf x s) := by
  rw [transact, space_eq_obuf h]

theorem transact_reserved {x : Txn} (h : spaceOf x = 3) (s : State) : transact x s = .next (illegalReply s) := by
  rw [transact, space_eq_reserved h]

/-- Every register address selects REG and its own register. -/
theorem spaceOf_regAddr (r : Reg) (d : Dir) (n : Nat) (v : Word) :
    spaceOf { rw := d, width := n, addr := regAddr r, wdata := v } = 0 := by
  cases r <;> simp [spaceOf, regAddr, Reg.offset]

theorem regAt_regAddr (r : Reg) (d : Dir) (n : Nat) (v : Word) :
    regAt (Txn.offset { rw := d, width := n, addr := regAddr r, wdata := v }) = some r := by
  cases r <;> rfl

theorem spaceOf_ibufAddr {off : Nat} (h : off < 2 ^ 30) (d : Dir) (n : Nat) (v : Word) :
    spaceOf { rw := d, width := n, addr := ibufAddr off, wdata := v } = 1 := by
  simp only [spaceOf, ibufAddr, BitVec.toNat_ofNat]; omega

theorem offset_ibufAddr {off : Nat} (h : off < 2 ^ 30) (d : Dir) (n : Nat) (v : Word) :
    Txn.offset { rw := d, width := n, addr := ibufAddr off, wdata := v } = off := by
  rw [offset_eq]; simp only [offsetOf, ibufAddr, BitVec.toNat_ofNat]; omega

theorem spaceOf_obufAddr {off : Nat} (h : off < 2 ^ 30) (d : Dir) (n : Nat) (v : Word) :
    spaceOf { rw := d, width := n, addr := obufAddr off, wdata := v } = 2 := by
  simp only [spaceOf, obufAddr, BitVec.toNat_ofNat]; omega

theorem offset_obufAddr {off : Nat} (h : off < 2 ^ 30) (d : Dir) (n : Nat) (v : Word) :
    Txn.offset { rw := d, width := n, addr := obufAddr off, wdata := v } = off := by
  rw [offset_eq]; simp only [offsetOf, obufAddr, BitVec.toNat_ofNat]; omega

/-- MAXLEN is a multiple of 8 within R5's bounds. -/
theorem maxlen_bounds (c : Config) : c.maxlen % 8 = 0 ∧ 8 ≤ c.maxlen ∧ c.maxlen ≤ 2 ^ 30 - 8 := by
  have := c.blocksLessOne.isLt
  unfold Config.maxlen; omega

/-- A width-4 access to REG at an offset of the map is an access to the register there. -/
theorem accessReg_at {x : Txn} {r : Reg} (hw : x.width = 4) (hr : regAt x.offset = some r) (s : State) :
    accessReg x s = accessRegister r x s := by
  rw [accessReg, if_pos hw, hr]

/-- R174: a read of a register. -/
theorem transact_readReg (r : Reg) (v : Word) (s : State) :
    transact { rw := .read, width := 4, addr := regAddr r, wdata := v } s = .next (readRegister s r) :=
  (transact_reg (spaceOf_regAddr r .read 4 v) s).trans (accessReg_at rfl (regAt_regAddr r .read 4 v) s)

/-- R175: a write of a register other than CMD. -/
theorem transact_writeReg (r : Reg) (hr : r ≠ .cmd) (v : Word) (s : State) :
    transact { rw := .write, width := 4, addr := regAddr r, wdata := v } s = .next (writeRegister s r v) :=
  (transact_reg (spaceOf_regAddr r .write 4 v) s).trans
    ((accessReg_at rfl (regAt_regAddr r .write 4 v) s).trans (by rw [accessRegister, if_neg hr]))

/-- R21: a write of CMD. -/
theorem transact_command (w : Word) (s : State) : transact (commandTxn w) s = withoutData (runCommand w s) :=
  (transact_reg (spaceOf_regAddr .cmd .write 4 w) s).trans
    ((accessReg_at rfl (regAt_regAddr .cmd .write 4 w) s).trans (by rw [accessRegister, if_pos rfl]))

/-- An access to REG with a width other than 4, or at an offset outside the map, is illegal (R176). -/
theorem accessReg_illegal {x : Txn} (h : x.width = 4 → regAt x.offset = none) (s : State) :
    accessReg x s = .next (illegalReply s) := by
  unfold accessReg
  have : (if x.width = 4 then regAt x.offset else none) = none := by
    split
    · exact h ‹_›
    · rfl
  rw [this]

/-- What a completed transaction did, in every case: it was illegal; or a read, without side effect but for the count of free
bytes; or a write of a register other than CMD; or a write of IBUF; or a command. -/
theorem transact_cases {x : Txn} {s : State} {r : Reply} (h : transact x s = .next r) :
    r = illegalReply s ∨
    (x.rw = .read ∧ ∃ d v, r = ({ s with draws := d }, v)) ∨
    (x.rw = .write ∧ ∃ g s', writeReg s x.wdata g = some s' ∧ r = (s', 0)) ∨
    (x.rw = .write ∧ accessLegal x s.cfg.maxlen = true ∧
      r = ({ s with ibuf := s.ibuf.writeBytes x.offset (storedBytes x) }, 0)) ∨
    (x.rw = .write ∧ x.addr = 0#32 ∧ ∃ i, decode x.wdata = .ok i ∧ exec i s = .next r.1) := by
  unfold transact at h
  split at h
  · rename_i hsp
    unfold accessReg at h
    split at h
    · cases h; exact .inl rfl
    · rename_i g hg
      unfold accessRegister at h
      split at h
      · rename_i hrw
        cases h
        unfold readRegister
        split
        · exact .inr (.inl ⟨hrw, s.draws, _, rfl⟩)
        · exact .inl rfl
      · rename_i hrw
        split at h
        · rename_i hcmd
          subst hcmd
          have hoff : offsetOf x = 0 := by
            rw [← offset_eq]
            split at hg
            · unfold regAt at hg
              split at hg <;> first | assumption | cases hg
            · cases hg
          have hspace : spaceOf x = 0 := by
            have h4 := spaceOf_lt x
            have : spaceOf x = 0 ∨ spaceOf x = 1 ∨ spaceOf x = 2 ∨ spaceOf x = 3 := by omega
            rcases this with h | h | h | h
            · exact h
            · rw [space_eq_ibuf h] at hsp; cases hsp
            · rw [space_eq_obuf h] at hsp; cases hsp
            · rw [space_eq_reserved h] at hsp; cases hsp
          have haddr : x.addr = 0#32 := by
            apply BitVec.eq_of_toNat_eq
            simp only [spaceOf, offsetOf] at hspace hoff
            simp only [BitVec.toNat_ofNat]; omega
          unfold withoutData at h
          split at h
          · rename_i s' hs'
            cases h
            unfold runCommand at hs'
            split at hs'
            · rename_i i hi
              exact .inr (.inr (.inr (.inr ⟨hrw, haddr, i, hi, hs'⟩)))
            · cases hs'; exact .inl rfl
          · cases h
          · cases h
        · cases h
          unfold writeRegister
          split
          · rename_i s' hs'
            exact .inr (.inr (.inl ⟨hrw, g, s', hs', rfl⟩))
          · exact .inl rfl
  · cases h
    unfold accessIbuf
    split
    · rename_i hl
      split
      · rename_i hrw
        exact .inr (.inl ⟨hrw, _, _, rfl⟩)
      · rename_i hrw
        exact .inr (.inr (.inr (.inl ⟨hrw, hl, rfl⟩)))
    · exact .inl rfl
  · cases h
    unfold accessObuf
    split
    · rename_i hrw
      split
      · exact .inr (.inl ⟨hrw, _, _, rfl⟩)
      · exact .inl rfl
    · exact .inl rfl
  · cases h; exact .inl rfl

/-- A transaction is refused only when it is a command that is refused; it never faults. -/
theorem transact_refused {x : Txn} {s : State} {q : Refusal} (h : transact x s = .refused q) :
    ∃ i, decode x.wdata = .ok i ∧ exec i s = .refused q := by
  unfold transact at h
  split at h
  · unfold accessReg at h
    split at h
    · cases h
    · unfold accessRegister at h
      split at h
      · cases h
      · split at h
        · unfold withoutData at h
          split at h
          · cases h
          · cases h
          · rename_i q' hq
            cases h
            unfold runCommand at hq
            split at hq
            · exact ⟨_, ‹_›, hq⟩
            · cases hq
        · cases h
  · cases h
  · cases h
  · cases h

/-- Attaching read data 0 to a command's outcome and observing a write gives the outcome back. -/
theorem runTxn_command (w : Word) (s : State) : runTxn (commandTxn w) s = runCommand w s := by
  rw [runTxn, transact_command]
  cases runCommand w s <;> rfl

/-- A step whose input is a transaction. -/
theorem step_bus {s : State} {x : Txn} {a b : Word} {rest : List HostInput} (h : s.pending = .bus x a b :: rest) :
    step s = runTxn x (s.taken rest a b) := by
  rw [step, takeNext, h]; rfl

/-- A step whose transaction completes. -/
theorem step_bus_next {s : State} {x : Txn} {a b : Word} {rest : List HostInput} {r : Reply}
    (h : s.pending = .bus x a b :: rest) (hr : transact x (s.taken rest a b) = .next r) : step s = .next (observe x.rw r) := by
  rw [step_bus h, runTxn, hr]

end Sys2Proof.Machine
end

