-- ==== Sys2Proof/Laws/Cipher.lean ====
section
/-! SUPPORT. How the rounds of the block cipher unfold, one round at a time, without computing any. -/
namespace Sys2Proof.Machine

/-- The last of `n + 1` rounds runs on the state after the first `n`. -/
theorem rounds_succ_last (f : RoundState → RoundState) (n : Nat) : ∀ r, rounds f (n + 1) r = f (rounds f n r) := by
  induction n with
  | zero => intro r; rfl
  | succ n ih => intro r; rw [rounds, ih, rounds]

/-- R113: a round of encryption advances `sum` by DELTA, whatever the key and the block. -/
theorem encRound_sum (k : Key) (r : RoundState) : (encRound k r).sum = r.sum + delta := rfl

/-- R115: a round of decryption lowers `sum` by DELTA. -/
theorem decRound_sum (k : Key) (r : RoundState) : (decRound k r).sum = r.sum + negDelta := rfl

/-- R119: the sum advances by DELTA. -/
theorem roundSum_succ (r : Nat) : roundSum (r + 1) = roundSum r + delta := by
  rw [roundSum, roundSum, Nat.succ_mul, BitVec.ofNat_add, delta]

/-- R119: the sum goes down by DELTA. -/
theorem roundSum_succ_add_negDelta (r : Nat) : roundSum (r + 1) + negDelta = roundSum r := by
  rw [roundSum_succ, BitVec.add_assoc, show delta + negDelta = 0#32 by decide, BitVec.add_zero]

/-- What `f` undoes once, `n` rounds of it undo `n` times. -/
theorem rounds_leftInverse {f g : RoundState → RoundState} (h : ∀ r, g (f r) = r) (n : Nat) :
    ∀ r, rounds g n (rounds f n r) = r := by
  induction n with
  | zero => intro r; rfl
  | succ n ih => intro r; rw [rounds_succ_last f, rounds, h, ih]

end Sys2Proof.Machine
end

