-- ==== Sys2Proof/Laws/PerInstr.lean ====
section
/-! SUPPORT. Statements about every command, one lemma per constructor. -/

/-- R62, R66: the command word of a command has `zero` = 0 and an `op` in 0x01..0x0C, so it is never the all-zero word. -/
def Sys2Proof.Laws.CommandWord.Statement (i : Sys2Proof.Instr) : Prop :=
  Sys2Proof.zeroField (Sys2Proof.encode i) = 0 ∧ Sys2Proof.opField (Sys2Proof.encode i) = Sys2Proof.opcode i ∧
    1 ≤ (Sys2Proof.opcode i).toNat ∧ (Sys2Proof.opcode i).toNat ≤ 0x0C

namespace Sys2Proof.Laws.CommandWord

theorem keysalt : Statement .keysalt := by unfold Statement; decide
theorem keyset : Statement .keyset := by unfold Statement; decide
theorem encblk : Statement .encblk := by unfold Statement; decide
theorem decblk : Statement .decblk := by unfold Statement; decide
theorem pad : Statement .pad := by unfold Statement; decide
theorem strip : Statement .strip := by unfold Statement; decide
theorem encstr : Statement .encstr := by unfold Statement; decide
theorem decstr : Statement .decstr := by unfold Statement; decide
theorem encrypt : Statement .encrypt := by unfold Statement; decide
theorem decrypt : Statement .decrypt := by unfold Statement; decide
theorem selftest : Statement .selftest := by unfold Statement; decide
theorem reset : Statement .reset := by unfold Statement; decide

end Sys2Proof.Laws.CommandWord
end

