-- ==== Sys2Proof/Laws/Run.lean ====
section
/-! SUPPORT. Runs of several steps, and the steps of the script statements. -/
namespace Sys2Proof.Machine

variable {s s' : State} {a b : Word} {rest : List HostInput}

/-- One step of a run of any machine, when it answers a next state. -/
theorem run_succ_next (M : Host.Core) (k : Nat) {s s' : M.State} (h : M.step s = .next s') :
    M.run (k + 1) s = M.run k s' := by
  simp [Host.Core.run, h]

/-- One step of a run of this machine. -/
theorem run_core_succ {k : Nat} (h : step s = .next s') :
    Host.Core.run Sys2Proof.core (k + 1) s = Host.Core.run Sys2Proof.core k s' :=
  run_succ_next Sys2Proof.core k h

/-- R68: a statement `wr` of a register other than CMD whose write is legal. -/
theorem step_wr {r : Reg} {v : Word} (hr : r ≠ .cmd) (h : s.pending = .bus (Stmt.wr r v).txn a b :: rest)
    (hw : writeReg (s.taken rest a b) v r = some s') : step s = .next s' := by
  rw [step_bus_next h (transact_writeReg r hr v _), writeRegister, hw]; rfl

/-- R68: a statement `wb` within IBUF. -/
theorem step_wb {off : Nat} {v : Byte} (h : s.pending = .bus (Stmt.wb off v).txn a b :: rest) (ho : off + 1 ≤ s.cfg.maxlen) :
    step s = .next { s.taken rest a b with ibuf := s.ibuf.write off v } := by
  have hb := maxlen_bounds s.cfg
  have hoff : (Stmt.wb off v).txn.offset = off := offset_ibufAddr (by omega) .write 1 (v.setWidth 32)
  have hl : accessLegal (Stmt.wb off v).txn (s.taken rest a b).cfg.maxlen = true := by
    show ((1 == 1 || _) && decide ((Stmt.wb off v).txn.offset + 1 ≤ s.cfg.maxlen)) = true
    rw [hoff]; simp [ho]
  have hby : byteOf (v.setWidth 32) 0 = v := by
    apply BitVec.eq_of_toNat_eq
    have := v.isLt
    simp [byteOf, BitVec.extractLsb'_toNat]; omega
  have hx : transact (Stmt.wb off v).txn (s.taken rest a b) =
      .next ({ s.taken rest a b with ibuf := s.ibuf.write off v }, 0) := by
    refine (transact_ibuf (spaceOf_ibufAddr (by omega) _ _ _) _).trans ?_
    show Host.Outcome.next (accessIbuf (Stmt.wb off v).txn (s.taken rest a b)) = _
    rw [accessIbuf, if_pos hl, hoff]
    show Host.Outcome.next
      (({ s.taken rest a b with ibuf := s.ibuf.writeBytes off [byteOf (v.setWidth 32) 0] }, 0) : Reply) = _
    rw [hby]; rfl
  exact step_bus_next h hx

end Sys2Proof.Machine
end

