-- ==== Sys2Proof/Tests/Slice0.lean ====
section
/-! SUPPORT. Tests of one step or one function on small states, and a witness for the hypotheses of every statement that has
any. Expected values: spec/95_test_vectors.md (the vector's name is in the theorem's comment) or the encodings of
spec/30_encoding.md written out by hand. -/
namespace Sys2Proof.Tests
open Sys2Proof.Machine

/-! ### Small states -/

/-- An engine with MAXLEN 32 and WS = {0x20} after reset. -/
def base : State := { State.reset with cfg := { blocksLessOne := 3, extraWs := [] } }

/-- The key derived from "dave" (95 K2). -/
def dave : Key := { k0 := 0x64617665#32, k1 := 0x64617665#32, k2 := 0x64617665#32, k3 := 0x64617665#32 }

/-- The key of V2. -/
def keyV2 : Key := { k0 := 0x00010203#32, k1 := 0x04050607#32, k2 := 0x08090a0b#32, k3 := 0x0c0d0e0f#32 }

/-- `base` with the key of "dave" and the time words of 95 section 5 on the ports. -/
def daveEngine : State := { base with k := dave, tsec := 0x65000000#32, tsub := 0x000a1b2c#32 }

/-- `daveEngine` after a reset: the ports stay. -/
def daveReset : State := { base with tsec := 0x65000000#32, tsub := 0x000a1b2c#32 }

def holding (s : State) (bs : List Byte) : State :=
  { s with ibuf := Memory.writeBytes [] 0 bs, ilen := BitVec.ofNat 32 bs.length }

def showing (s : State) (bs : List Byte) : State :=
  { s with obuf := Memory.writeBytes [] 0 bs, olen := BitVec.ofNat 32 bs.length }

def direct (s : State) : State := { s with ctrl := 0 }

def withStatus (s : State) (w : Word) : State := { s with status := w }

/-- `s` with one transaction to come. -/
def withTxn (s : State) (x : Txn) : State := { s with pending := [.bus x 0x65000000#32 0x000a1b2c#32] }

def withCmd (s : State) (w : Word) : State := withTxn s { rw := .write, width := 4, addr := 0x00000000#32, wdata := w }

def readAt (width : Nat) (addr : Word) : Txn := { rw := .read, width := width, addr := addr, wdata := 0 }

def writeAt (width : Nat) (addr v : Word) : Txn := { rw := .write, width := width, addr := addr, wdata := v }

/-- Does the outcome a next state with the property? -/
def after (o : Host.Outcome State Fault Refusal) (p : State → Bool) : Bool :=
  match o with
  | .next t => p t
  | .fault _ => false
  | .refused _ => false

/-- The readable bytes of OBUF. -/
def output (t : State) : Option (List Byte) := t.obuf.readBytes 0 t.olen.toNat

def hello : List Byte := [0x68#8, 0x65#8, 0x6c#8, 0x6c#8, 0x6f#8]

/-- The chained stream of "hello" (95 S2). -/
def helloStream : List Byte := wordsToBytes [0x65000000#32, 0x000a1b2c#32, 0xaaa0565e#32, 0xf343b6a1#32]

/-! ### Well-formedness: an ill-formed transaction for each check -/

theorem test_wf_good : (readAt 4 0x40000004#32).wf = true ∧ (readAt 1 0x80000003#32).wf = true ∧
    (writeAt 4 0x00000000#32 1#32).wf = true := by decide

/-- R60: no width but 1 and 4. -/
theorem test_wf_width : (readAt 2 0x40000000#32).widthWf = false ∧ (readAt 2 0x40000000#32).wf = false := by decide

/-- R48: a width-4 access must be aligned. -/
theorem test_wf_align : (readAt 4 0x40000002#32).alignWf = false ∧ (readAt 4 0x40000002#32).wf = false := by decide

/-- R48: REG accepts width 4 only. -/
theorem test_wf_regWidth : (readAt 1 0x00000004#32).regWidthWf = false ∧ (readAt 1 0x00000004#32).wf = false := by decide

/-- R40: space select 3 is reserved. -/
theorem test_wf_space : (readAt 4 0xC0000000#32).spaceWf = false ∧ (readAt 4 0xC0000000#32).wf = false := by decide

/-- R62: every command is well formed. -/
theorem test_wf_command : Instr.keysalt.wf = true ∧ Instr.reset.wf = true := by decide

/-! ### Decoding: words written out bit by bit from R62 and R63 -/

theorem test_decode_keys : decode 0b00000000000000000000000000000001#32 = .ok .keysalt ∧
    decode 0b00000000000000000000000000000010#32 = .ok .keyset := by decide

theorem test_decode_blocks : decode 0b00000000000000000000000000000011#32 = .ok .encblk ∧
    decode 0b00000000000000000000000000000100#32 = .ok .decblk := by decide

theorem test_decode_padding : decode 0b00000000000000000000000000000101#32 = .ok .pad ∧
    decode 0b00000000000000000000000000000110#32 = .ok .strip := by decide

theorem test_decode_streams : decode 0b00000000000000000000000000000111#32 = .ok .encstr ∧
    decode 0b00000000000000000000000000001000#32 = .ok .decstr := by decide

theorem test_decode_messages : decode 0b00000000000000000000000000001001#32 = .ok .encrypt ∧
    decode 0b00000000000000000000000000001010#32 = .ok .decrypt := by decide

theorem test_decode_system : decode 0b00000000000000000000000000001011#32 = .ok .selftest ∧
    decode 0b00000000000000000000000000001100#32 = .ok .reset := by decide

/-- 95 E11: the words 0x0D, 0 and 0x103 are no commands; 0x0100000A has a `zero` field that is not 0. -/
theorem test_decode_refuses : (decode 0x0000000D#32).toOption = none ∧ (decode 0x00000000#32).toOption = none ∧
    (decode 0x00000103#32).toOption = none ∧ (decode 0x0100000A#32).toOption = none := by decide

/-- The table's numbering: a command is one 32-bit word. -/
theorem test_decodeTableWord : decodeTableWord 32 0x9 = some .encrypt ∧ decodeTableWord 32 0x10A = none := by decide

/-- The word an opcode-table row gives runs as the first command after reset. -/
theorem test_withFetchWord : step (State.reset.withFetchWord 32 0x3) = exec .encblk State.reset := rfl

/-! ### The datapath functions -/

/-- 95 section 2: carries dropped, logical shifts, bits lost. -/
theorem test_arith : add32 0xffffffff#32 1#32 = 0 ∧ add32 0x12345678#32 0x0fedcba8#32 = 0x22222220#32 ∧
    neg32 0x9e3779b9#32 = 0x61c88647#32 ∧ neg32 0x80000000#32 = 0x80000000#32 ∧
    add32 0xc6ef3720#32 (neg32 0x9e3779b9#32) = 0x28b7bd67#32 ∧ rshift32 0x80000000#32 5 = 0x04000000#32 ∧
    rshift32 0xffffffff#32 32 = 0 ∧ shl32 0x80000001#32 4 = 0x00000010#32 := by decide

/-- 95 section 2: the byte at the lowest offset is the most significant. -/
theorem test_codec : be32 0x12#8 0x34#8 0x56#8 0x78#8 = 0x12345678#32 ∧
    wordToBytes 0x0a0b0c0d#32 = [0x0a#8, 0x0b#8, 0x0c#8, 0x0d#8] ∧ bytesToWords hello = none ∧ bytesToWords [] = some [] := by
  decide

/-- 95 section 2, the mixing function. -/
theorem test_mixF : mixF 0x41414141#32 0 0 = 0x575f5f5b#32 ∧ mixF 0xffffffff#32 0xffffffff#32 1#32 = 0xf800000e#32 ∧
    mixF 0x80000000#32 0x9e3779b9#32 0x0c0d0e0f#32 = 0x2e4487c8#32 := by decide

/-- 95 section 3: the first round of V2 and the first inverse round of V1. -/
theorem test_rounds : encRound keyV2 { sum := 0, y := 0x41424344#32, z := 0x45464748#32 } =
      { sum := 0x9e3779b9#32, y := 0xdcd7cf45#32, z := 0x477ce5ef#32 } ∧
    decRound zeroKey { sum := sumEnd, y := 0xed23375a#32, z := 0x821a8c2d#32 } =
      { sum := 0x28b7bd67#32, y := 0x7b76affa#32, z := 0x7d87f7d9#32 } := by decide

/-! ### Commands -/

/-- 95 K4: the last repetition of the salt is cut. -/
theorem test_keysalt_repeats : after (exec .keysalt (holding base [0x61#8, 0x62#8, 0x63#8]))
    (fun t => t.k = { k0 := 0x61626361#32, k1 := 0x62636162#32, k2 := 0x63616263#32, k3 := 0x61626361#32 }) = true := by
  decide

/-- 95 K9: bytes 16 to 19 of the salt play no part. -/
theorem test_keysalt_cuts : after (exec .keysalt
      (holding base (wordsToBytes [0x30313233#32, 0x34353637#32, 0x38396162#32, 0x63646566#32, 0x58595a57#32])))
    (fun t => t.k = { k0 := 0x30313233#32, k1 := 0x34353637#32, k2 := 0x38396162#32, k3 := 0x63646566#32 }) = true := by
  decide

/-- 95 P1: KEYSET copies KIN and keeps STDONE and STPASS. -/
theorem test_keyset : after (exec .keyset (withStatus { base with kin := keyV2 } 0xF#32))
    (fun t => t.k = keyV2 && t.kin = keyV2 && t.status = 0xC#32) = true := by decide

/-- 95 V2. -/
theorem test_encblk : after (exec .encblk { base with k := keyV2, y := 0x41424344#32, z := 0x45464748#32 })
    (fun t => t.y = 0x497df3d0#32 && t.z = 0x72612cb5#32) = true := by decide

/-- 95 B1: the first ENCBLK after reset; an old error is cleared. -/
theorem test_encblk_reset : after (exec .encblk (withStatus base 0x3#32))
    (fun t => t.y = 0xdee9d4d8#32 && t.z = 0xf7131ed9#32 && t.status = 0) = true := by decide

/-- 95 B5, the DECBLK column. -/
theorem test_decblk : after (exec .decblk { base with k := dave, y := 0x68656c6c#32, z := 0x6f202020#32 })
    (fun t => t.y = 0xa8aea541#32 && t.z = 0xb02ca963#32) = true := by decide

/-- 95 B8, the DECBLK column. -/
theorem test_decblk_vector : after (exec .decblk { base with k := keyV2, y := 0x497df3d0#32, z := 0x72612cb5#32 })
    (fun t => t.y = 0x41424344#32 && t.z = 0x45464748#32) = true := by decide

/-- 95 S2: three spaces. -/
theorem test_pad : after (exec .pad (holding base hello))
    (fun t => t.ilen = 8#32 && t.ibuf.readBytes 0 8 = some (hello ++ [0x20#8, 0x20#8, 0x20#8])) = true := by decide

/-- 95 S3: a multiple of 8 gets no byte. -/
theorem test_pad_none : after (exec .pad (holding base (hello ++ [0x31#8, 0x32#8, 0x33#8])))
    (fun t => t.ilen = 8#32 && t.ibuf.length = 8) = true := by decide

/-- 95 T2: OLEN falls, the bytes stay. -/
theorem test_strip : after (exec .strip (showing base (hello ++ [0x20#8, 0x20#8, 0x20#8])))
    (fun t => t.olen = 5#32 && t.obuf.read 7 = some 0x20#8) = true := by decide

/-- 95 T7: an output of spaces only is stripped to nothing. -/
theorem test_strip_all : after (exec .strip (showing base (List.replicate 8 0x20#8))) (fun t => t.olen = 0#32) = true := by
  decide

/-- 95 S15: equal blocks in direct mode. -/
theorem test_encstr_direct : after (exec .encstr (direct (holding base (List.replicate 16 0x41#8))))
    (fun t => output t = some (wordsToBytes [0xed23375a#32, 0x821a8c2d#32, 0xed23375a#32, 0x821a8c2d#32])) = true := by
  decide

/-- 95 E10: ENCSTR without padding. -/
theorem test_encstr_malformed : after (exec .encstr (showing (holding base hello) hello))
    (fun t => t.status = 1#32 && t.olen = 0#32 && t.ilen = 5#32) = true := by decide

/-- 95 S9: a wrong key gives wrong plaintext and no error. -/
theorem test_decstr_wrong_key : after (exec .decstr (holding
      { base with k := { k0 := 0x65766164#32, k1 := 0x65766164#32, k2 := 0x65766164#32, k3 := 0x65766164#32 } } helloStream))
    (fun t => t.status = 0 && output t = some (wordsToBytes [0xa7744ff5#32, 0x427fa25a#32])) = true := by decide

/-- 95 E3, E4, E7: the order of the length checks. -/
theorem test_decstr_lengths : after (exec .decstr (holding daveEngine (helloStream.take 4))) (fun t => t.status = 2#32) = true ∧
    after (exec .decstr (holding daveEngine (helloStream.take 7))) (fun t => t.status = 1#32) = true ∧
    after (exec .decstr (direct (holding daveEngine (helloStream.take 12)))) (fun t => t.status = 2#32) = true := by
  decide

/-- 95 S4, chained. -/
theorem test_encrypt : after (exec .encrypt (holding daveEngine (hello ++ [0x20#8, 0x77#8, 0x6f#8, 0x72#8, 0x6c#8, 0x64#8])))
    (fun t => t.ilen = 16#32 && t.olen = 24#32 && output t = some (wordsToBytes
      [0x65000000#32, 0x000a1b2c#32, 0x6d7c08f8#32, 0x7fe37dba#32, 0x22ad07ff#32, 0xfeb8d7f3#32])) = true := by
  decide

/-- 95 S1: the empty message, chained: the IV block alone. -/
theorem test_encrypt_empty : after (exec .encrypt daveEngine)
    (fun t => output t = some (wordsToBytes [0x65000000#32, 0x000a1b2c#32])) = true := by decide

/-- 95 T2. -/
theorem test_decrypt : after (exec .decrypt (holding daveEngine helloStream))
    (fun t => t.status = 0 && output t = some hello) = true := by decide

/-- 95 T1, E1: one block is too short in chained mode; no block is enough in direct mode. -/
theorem test_decrypt_short : after (exec .decrypt (holding daveEngine (helloStream.take 8)))
      (fun t => t.status = 2#32 && t.olen = 0) = true ∧
    after (exec .decrypt (direct daveEngine)) (fun t => t.status = 0 && t.olen = 0) = true := by decide

/-- 95 P1. -/
theorem test_selftest : after (exec .selftest (withStatus base 0x3#32)) (fun t => t.status = 0xC#32) = true := by
  decide

/-- R172: nothing of the previous owner stays. -/
theorem test_reset : exec .reset (direct (withStatus (showing (holding { base with k := dave, kin := dave, y := 1, z := 2 }
    hello) hello) 0xF#32)) = .next base := rfl

/-! ### The bus -/

/-- 95 P2's last line: a read at OLEN is illegal, returns 0 and sets ERR. -/
theorem test_read_beyond_olen : after (step (withTxn (showing base helloStream) (readAt 1 0x80000010#32)))
    (fun t => t.status = 3#32 && t.observed = [0#32] && t.olen = 16#32) = true := by decide

/-- 95 P3: the last whole word below OLEN = 5 is at offset 0. -/
theorem test_read_word_at_olen : after (step (withTxn (showing base hello) (readAt 4 0x80000000#32)))
      (fun t => t.status = 0 && t.observed = [0x68656c6c#32]) = true ∧
    after (step (withTxn (showing base hello) (readAt 4 0x80000004#32)))
      (fun t => t.status = 3#32 && t.observed = [0#32]) = true := by decide

/-- R177: a read of a byte that holds no value completes with a free value and no error. -/
theorem test_read_unwritten : after (step (withTxn base (readAt 1 0x40000000#32)))
    (fun t => t.status = 0 && t.draws = 1 && t.observed.length = 1) = true := by decide

/-- R26: a read of TSEC and TSUB sees the ports at that moment. -/
theorem test_read_time : after (step (withTxn base (readAt 4 0x00000014#32))) (fun t => t.observed = [0x65000000#32]) = true ∧
    after (step (withTxn base (readAt 4 0x00000018#32))) (fun t => t.observed = [0x000a1b2c#32]) = true := by decide


/-! ### Witnesses: a concrete state that meets the hypotheses of each statement, clause by clause -/

theorem test_witness_DecodeAndEncodeAgree : Instr.decrypt.wf = true ∧ decode 0x0000000A#32 = .ok .decrypt := by decide

theorem test_witness_StepRunsTheDecodedCommand :
    (withCmd base 0x00000009#32).pending =
      .bus { rw := .write, width := 4, addr := 0x00000000#32, wdata := 0x00000009#32 } 0x65000000#32 0x000a1b2c#32 :: [] ∧
    decode 0x00000009#32 = .ok .encrypt := by decide

theorem test_witness_IdleEngineHoldsItsState : base.pending = [] := rfl

/-- One access for each clause of `IllegalAccess`, at the boundary of its range; OLEN is 16, MAXLEN 32. -/
def illegalAccesses : List Txn :=
  [readAt 0 0x40000000#32, readAt 2 0x40000000#32, readAt 3 0x80000000#32, readAt 5 0x40000000#32,
   readAt 4 0x40000001#32, writeAt 4 0x40000003#32 0#32, readAt 4 0x80000002#32,
   readAt 1 0xC0000000#32, writeAt 4 0xFFFFFFFC#32 0#32,
   readAt 1 0x00000004#32, writeAt 1 0x00000040#32 0#32] ++
  [readAt 4 0x0000001C#32, writeAt 4 0x0000001C#32 0#32, readAt 4 0x00000048#32, writeAt 4 0x3FFFFFFC#32 0#32,
   readAt 4 0x00000000#32,
   writeAt 4 0x00000004#32 0#32, writeAt 4 0x00000010#32 0#32, writeAt 4 0x00000014#32 0#32, writeAt 4 0x00000018#32 0#32,
   writeAt 4 0x00000030#32 0#32, writeAt 4 0x00000034#32 0#32, writeAt 4 0x00000038#32 0#32, writeAt 4 0x0000003C#32 0#32] ++
  [writeAt 4 0x0000000C#32 33#32, writeAt 4 0x0000000C#32 0xFFFFFFFF#32,
   writeAt 4 0x00000000#32 0x00000000#32, writeAt 4 0x00000000#32 0x0000000D#32, writeAt 4 0x00000000#32 0x00000103#32,
   writeAt 4 0x00000000#32 0xFFFFFFFF#32,
   readAt 1 0x40000020#32, writeAt 4 0x40000020#32 0#32, writeAt 1 0x7FFFFFFF#32 0#32,
   writeAt 1 0x80000000#32 0#32, writeAt 4 0x80000000#32 0#32, readAt 1 0x80000010#32, readAt 4 0x80000010#32]

theorem test_witness_ResetStateHasTheSpecValues : exec .reset (withStatus daveEngine 0xF#32) = .next daveReset ∧
    step { withStatus daveEngine 0xF#32 with pending := [.hardwareReset] } = .next daveReset := ⟨rfl, rfl⟩

/-- The first and the last round. -/
theorem test_witness_SumAndKeyIndexSchedule : (0 : Nat) < 32 ∧ (31 : Nat) < 32 := by decide

theorem test_witness_IllegalRequestsSetErrOnly : ∀ x ∈ illegalAccesses, IllegalAccess (showing base helloStream) x := by
  unfold IllegalAccess; decide

/-- Each of them sets `ERR` to 3 and keeps the output. -/
theorem test_illegal_accesses : ∀ x ∈ illegalAccesses, after (step (withTxn (showing base helloStream) x))
    (fun t => t.status = 3#32 && t.olen = 16#32 && t.observed = (match x.rw with | .read => [0#32] | .write => [])) = true := by
  decide

/-- Every register with a value of its own. -/
def distinct : State :=
  { base with k := { k0 := 0x30#32, k1 := 0x34#32, k2 := 0x38#32, k3 := 0x3C#32 }
              kin := { k0 := 0x20#32, k1 := 0x24#32, k2 := 0x28#32, k3 := 0x2C#32 }
              y := 0x40#32, z := 0x44#32, status := 0xE#32, ctrl := 0x1#32, ilen := 0x1C#32, olen := 0#32 }

theorem test_witness_RegisterReadsReturnTheRegister : distinct.statusReserved = 0 ∧ distinct.ctrlReserved = 0 ∧
    (withTxn distinct (readAt 4 (BitVec.ofNat 32 0x44))).pending =
      .bus { rw := .read, width := 4, addr := BitVec.ofNat 32 0x44, wdata := 0 } 0x65000000#32 0x000a1b2c#32 :: [] := by
  decide

/-- R61: the readable registers at their offsets. -/
theorem test_register_reads : ∀ p ∈ [(0x04, 0xE#32), (0x08, 0x1#32), (0x0C, 0x1C#32), (0x10, 0#32), (0x14, 0x65000000#32),
      (0x18, 0x000a1b2c#32), (0x20, 0x20#32), (0x24, 0x24#32), (0x28, 0x28#32), (0x2C, 0x2C#32), (0x30, 0x30#32),
      (0x34, 0x34#32), (0x38, 0x38#32), (0x3C, 0x3C#32), (0x40, 0x40#32), (0x44, 0x44#32)],
    after (step (withTxn distinct (readAt 4 (BitVec.ofNat 32 p.1)))) (fun t => t.observed = [p.2] && t.status = 0xE#32) = true := by
  decide

theorem test_witness_RegisterWritesStoreTheValue : ∀ off ∈ [0x08, 0x0C, 0x20, 0x24, 0x28, 0x2C, 0x40, 0x44],
    (withTxn base (writeAt 4 (BitVec.ofNat 32 off) 32#32)).pending =
      .bus { rw := .write, width := 4, addr := BitVec.ofNat 32 off, wdata := 32#32 } 0x65000000#32 0x000a1b2c#32 :: [] ∧
    (32#32).toNat ≤ base.cfg.maxlen := by decide

/-- R175, R23: a write of CTRL keeps bit 0 only; a write of ILEN takes MAXLEN. -/
theorem test_register_writes :
    after (step (withTxn base (writeAt 4 0x00000008#32 0xFFFFFFFE#32))) (fun t => t.ctrl = 0) = true ∧
    after (step (withTxn base (writeAt 4 0x0000000C#32 32#32))) (fun t => t.ilen = 32#32) = true ∧
    after (step (withTxn base (writeAt 4 0x0000002C#32 5#32))) (fun t => t.kin.k3 = 5#32 && t.k = zeroKey) = true := by
  decide

theorem test_witness_IbufWritesStoreTheBytes : 31 + 1 ≤ base.cfg.maxlen ∧ 28 % 4 = 0 ∧ 28 + 4 ≤ base.cfg.maxlen ∧
    (withTxn base (writeAt 4 (BitVec.ofNat 32 (0x40000000 + 28)) 7#32)).pending =
      .bus { rw := .write, width := 4, addr := BitVec.ofNat 32 (0x40000000 + 28), wdata := 7#32 } 0x65000000#32 0x000a1b2c#32
        :: [] := by decide

/-- R177: the last byte and the last word of IBUF. -/
theorem test_ibuf_writes :
    after (step (withTxn base (writeAt 1 0x4000001F#32 0xFFFFFF12#32))) (fun t => t.ibuf = [(31, 0x12#8)]) = true ∧
    after (step (withTxn base (writeAt 4 0x4000001C#32 0x12345678#32)))
      (fun t => t.ibuf = [(28, 0x12#8), (29, 0x34#8), (30, 0x56#8), (31, 0x78#8)]) = true := by decide

theorem test_witness_BufferReadsReturnTheBytes :
    (showing base hello).olen.toNat ≤ (showing base hello).cfg.maxlen + 8 ∧
    4 + 1 ≤ (showing base hello).olen.toNat ∧ (showing base hello).obuf.read 4 = some 0x6f#8 ∧
    0 + 4 ≤ (showing base hello).olen.toNat ∧ (showing base hello).obuf.read 0 = some 0x68#8 ∧
    (showing base hello).obuf.read 1 = some 0x65#8 ∧ (showing base hello).obuf.read 2 = some 0x6c#8 ∧
    (showing base hello).obuf.read 3 = some 0x6c#8 := by decide

theorem test_witness_BufferReadsReturnTheBytes_ibuf :
    31 + 1 ≤ base.cfg.maxlen ∧ (Memory.write [] 31 0x12#8).read 31 = some 0x12#8 ∧ 28 + 4 ≤ base.cfg.maxlen ∧
    (withTxn base (readAt 1 (BitVec.ofNat 32 (0x40000000 + 31)))).pending =
      .bus { rw := .read, width := 1, addr := BitVec.ofNat 32 (0x40000000 + 31), wdata := 0 } 0x65000000#32 0x000a1b2c#32
        :: [] := by decide

/-- A read of a register, of an unwritten byte of IBUF, of the last byte of OBUF. -/
theorem test_witness_LegalReadsHaveNoSideEffect : ∀ x ∈ [readAt 4 0x00000004#32, readAt 1 0x4000001F#32, readAt 4 0x4000001C#32,
    readAt 1 0x80000004#32], x.rw = .read ∧ ¬ IllegalAccess (showing base hello) x := by
  unfold IllegalAccess; decide

theorem test_witness_MixedWidthViewsAgree : 28 % 4 = 0 ∧ 28 + 4 ≤ base.cfg.maxlen ∧
    ({ base with pending := scriptInputs 0 0 [.wb 28 1#8, .wb 29 2#8, .wb 30 3#8, .wb 31 4#8, .rwIbuf 28] } : State).pending =
      scriptInputs 0 0 [.wb 28 1#8, .wb (28 + 1) 2#8, .wb (28 + 2) 3#8, .wb (28 + 3) 4#8, .rwIbuf 28] := by decide

theorem test_witness_HardwareResetActsAsReset :
    ({ base with pending := [.hardwareReset] } : State).pending = .hardwareReset :: [] := rfl

theorem base_inv : base.Inv :=
  ⟨by decide, by decide, by unfold FitsBelow; decide, by unfold FitsBelow; decide, by decide, by decide,
    by unfold OutputWritten; decide, by decide, by decide⟩

theorem test_witness_EveryStepKeepsTheInvariant : base.Inv ∧ step base = .next base := ⟨base_inv, rfl⟩

/-- The key changes: KEYSET, RESET, hardware reset, KEYSALT. -/
theorem test_witness_KeyChangesOnlyByKeyCommandsAndReset :
    after (step (withCmd { base with kin := keyV2 } 0x00000002#32)) (fun t => t.k ≠ zeroKey) = true ∧
    after (step (withCmd daveEngine 0x0000000C#32)) (fun t => t.k ≠ dave) = true ∧
    after (step { daveEngine with pending := [.hardwareReset] }) (fun t => t.k ≠ dave) = true ∧
    after (step (withCmd (holding base hello) 0x00000001#32)) (fun t => t.k ≠ zeroKey) = true := by decide

/-- The bits change: SELFTEST, RESET, hardware reset. -/
theorem test_witness_SelftestBitsChangeOnlyBySelftestAndReset :
    after (step (withCmd base 0x0000000B#32)) (fun t => t.stdone ≠ base.stdone && t.stpass ≠ base.stpass) = true ∧
    after (step (withCmd (withStatus base 0xC#32) 0x0000000C#32)) (fun t => t.stdone ≠ true) = true ∧
    after (step { withStatus base 0xC#32 with pending := [.hardwareReset] }) (fun t => t.stpass ≠ true) = true := by decide

/-- ILEN 1 over an IBUF that nothing has written, and KEYSALT to come. -/
theorem test_witness_StepsStopOnlyOnUnwrittenInput :
    ({ base with ilen := 1#32, pending := (withCmd base 1#32).pending } : State).Inv ∧
    step { base with ilen := 1#32, pending := (withCmd base 1#32).pending } = .refused .unwrittenInput :=
  ⟨⟨by decide, by decide, by unfold FitsBelow; decide, by unfold FitsBelow; decide, by decide, by decide,
    by unfold OutputWritten; decide, by decide, by decide⟩, rfl⟩

/-- An empty salt, one of 5 bytes, and one of 17 bytes whose last is not written. -/
theorem test_witness_KeysaltDerivesTheKey :
    ([] : List Byte).length = base.ilen.toNat ∧ Holds base.ibuf 0 (([] : List Byte).take 16) ∧
    hello.length = (holding base hello).ilen.toNat ∧ Holds (holding base hello).ibuf 0 (hello.take 16) ∧
    (List.replicate 17 7#8).length = ({ holding base (List.replicate 16 7#8) with ilen := 17#32 } : State).ilen.toNat ∧
    Holds (holding base (List.replicate 16 7#8)).ibuf 0 ((List.replicate 17 7#8).take 16) := by
  unfold Holds; decide

theorem test_witness_PadFillsUpToTheNextBlock : base.ilen.toNat ≤ base.cfg.maxlen ∧
    (holding base hello).ilen.toNat ≤ (holding base hello).cfg.maxlen ∧
    ({ base with ilen := 32#32 } : State).ilen.toNat ≤ base.cfg.maxlen := by decide

theorem test_witness_StripCutsTheTrailingWhitespace : OutputWritten base ∧ OutputWritten (showing base hello) := by
  unfold OutputWritten; decide

/-- No block and one block. -/
theorem test_witness_EncstrChainsTheBlocks : (InputWritten base base.ilen.toNat ∧ base.ilen.toNat % 8 = 0 ∧ base.cbc = true) ∧
    (holding base (List.replicate 8 1#8)).ilen.toNat ≤ base.cfg.maxlen ∧
    (holding base (List.replicate 8 1#8)).ilen.toNat % 8 = 0 ∧
    InputWritten (holding base (List.replicate 8 1#8)) (holding base (List.replicate 8 1#8)).ilen.toNat ∧
    (holding base (List.replicate 8 1#8)).cbc = true := by
  unfold InputWritten; decide

theorem test_witness_EncstrDirectEncryptsEachBlock :
    (InputWritten (direct base) 0 ∧ (direct base).ilen.toNat = 0 ∧ (direct base).cbc = false) ∧
    (direct (holding base (List.replicate 8 1#8))).ilen.toNat ≤ base.cfg.maxlen ∧
    (direct (holding base (List.replicate 8 1#8))).ilen.toNat % 8 = 0 ∧
    InputWritten (direct (holding base (List.replicate 8 1#8))) 8 ∧ (direct (holding base (List.replicate 8 1#8))).cbc = false := by
  unfold InputWritten; decide

/-- Two blocks, the least a chained stream may have. -/
theorem test_witness_DecstrUnchainsTheBlocks : (holding base helloStream).ilen.toNat ≤ base.cfg.maxlen ∧
    (holding base helloStream).ilen.toNat = 16 ∧ InputWritten (holding base helloStream) 16 ∧
    (holding base helloStream).cbc = true := by
  unfold InputWritten; decide

theorem test_witness_DecstrDirectDecryptsEachBlock :
    (InputWritten (direct base) 0 ∧ (direct base).ilen.toNat = 0 ∧ (direct base).cbc = false) ∧
    (direct (holding base helloStream)).ilen.toNat = 16 ∧ 16 ≤ base.cfg.maxlen ∧
    InputWritten (direct (holding base helloStream)) 16 ∧ (direct (holding base helloStream)).cbc = false := by
  unfold InputWritten; decide

/-- A length for each check: 7 for ENCSTR; 7, 4, and chained 8 and 0 for DECSTR and DECRYPT. -/
theorem test_witness_WrongLengthsRaiseTheError : ({ base with ilen := 7#32 } : State).ilen.toNat % 8 ≠ 0 ∧
    ({ base with ilen := 7#32 } : State).ilen.toNat % 4 ≠ 0 ∧
    (({ base with ilen := 4#32 } : State).ilen.toNat % 4 = 0 ∧ ({ base with ilen := 4#32 } : State).ilen.toNat % 8 ≠ 0) ∧
    (({ base with ilen := 8#32 } : State).ilen.toNat % 8 = 0 ∧ ({ base with ilen := 8#32 } : State).cbc = true ∧
      ({ base with ilen := 8#32 } : State).ilen.toNat / 8 < 2) ∧
    (base.ilen.toNat % 8 = 0 ∧ base.cbc = true ∧ base.ilen.toNat / 8 < 2) := by decide

theorem test_witness_EncryptIsPadThenEncstr : (base.ilen.toNat ≤ base.cfg.maxlen ∧ InputWritten base base.ilen.toNat) ∧
    (holding base hello).ilen.toNat ≤ base.cfg.maxlen ∧ InputWritten (holding base hello) (holding base hello).ilen.toNat := by
  unfold InputWritten; decide

theorem test_witness_DecryptIsDecstrThenStrip :
    ((direct base).ilen.toNat = 0 ∧ (direct base).cbc = false ∧ InputWritten (direct base) 0) ∧
    (holding base helloStream).ilen.toNat = 16 ∧ 16 ≤ base.cfg.maxlen ∧ InputWritten (holding base helloStream) 16 := by
  unfold InputWritten; decide

/-- ILEN 16 over an IBUF whose byte 15 is not written: the premises of every refusing clause. -/
theorem test_witness_CommandsOnUnwrittenInputAreRefused :
    ({ holding base (List.replicate 15 1#8) with ilen := 16#32 } : State).ibuf.read 15 = none ∧ 15 < 16 ∧
    ({ holding base (List.replicate 15 1#8) with ilen := 16#32 } : State).ilen.toNat = 16 ∧ 16 ≤ base.cfg.maxlen := by decide

/-- An IBUF of which nothing is written: ILEN 1, 4 and, chained, 8 each fail a check although byte 0 holds no value (95 E3 and R134's
corner cases for the codes). -/
theorem test_witness_CommandsOnUnwrittenInputAreRefused_checks : base.ibuf.read 0 = none ∧ base.cbc = true ∧
    (1#32).toNat % 8 ≠ 0 ∧ (4#32).toNat % 8 ≠ 0 ∧ (8#32).toNat < 16 ∧
    after (exec .encstr { base with ilen := 4#32 }) (fun t => t.err = 1#2) = true ∧
    after (exec .decstr { base with ilen := 1#32 }) (fun t => t.err = 1#2) = true ∧
    after (exec .decrypt { base with ilen := 4#32 }) (fun t => t.err = 2#2) = true ∧
    after (exec .decstr { base with ilen := 8#32 }) (fun t => t.err = 2#2) = true := by decide

/-- The two errors a command ends with. -/
theorem test_witness_FailedCommandFailsAgainAlike :
    after (exec .encstr (holding base hello)) (fun t => t.err = 1#2) = true ∧
    after (exec .decrypt base) (fun t => t.err = 2#2) = true := by decide

/-- Two engines that differ in every register and byte that a chained ENCSTR or ENCRYPT does not use. -/
theorem test_witness_StreamResultsDependOnTheirOperandsOnly :
    let s := holding daveEngine helloStream
    let u : State := { showing s (List.replicate 20 9#8) with kin := keyV2, y := 1, z := 2, status := 0xF#32 }
    u.k = s.k ∧ u.cbc = s.cbc ∧ u.ilen = s.ilen ∧ u.cfg = s.cfg ∧ s.cbc = true ∧ (u.tsec = s.tsec ∧ u.tsub = s.tsub) ∧
      (∀ a < s.ilen.toNat, u.ibuf.read a = s.ibuf.read a) ∧ u ≠ s ∧
      (∀ i ∈ [Instr.encstr, .decstr, .encrypt, .decrypt], after (exec i s) (fun t => t.err = 0#2) = true) := by decide

/-- Other time words: chained DECSTR and DECRYPT, and all four commands in direct mode. -/
theorem test_witness_StreamResultsDependOnTheirOperandsOnly_time :
    let s := holding daveEngine helloStream
    let u : State := { s with tsec := 1, tsub := 2 }
    u.tsec ≠ s.tsec ∧ u.tsub ≠ s.tsub ∧ u.cbc = s.cbc ∧ (direct s).cbc = false ∧ (direct u).cbc = (direct s).cbc ∧
      (∀ i ∈ [Instr.decstr, .decrypt], ¬ (i = .encstr ∨ i = .encrypt) ∧ after (exec i s) (fun t => t.err = 0#2) = true) ∧
      (∀ i ∈ [Instr.encstr, .decstr, .encrypt, .decrypt], after (exec i (direct s)) (fun t => t.err = 0#2) = true) := by decide

theorem test_witness_ResetErasesThePreviousOwner : SameOutside base (showing { base with k := dave } hello) ∧
    exec .reset base = .next base ∧ exec .reset (showing { base with k := dave } hello) = .next base :=
  ⟨⟨rfl, rfl, rfl, rfl, rfl, rfl⟩, rfl, rfl⟩

theorem test_witness_BytesToWordsSplitsInOrder : bytesToWords helloStream =
    some [0x65000000#32, 0x000a1b2c#32, 0xaaa0565e#32, 0xf343b6a1#32] ∧ 3 < helloStream.length / 4 := by decide

theorem test_witness_DeriveKeyRepeatsOrCutsTheSalt : hello ≠ [] := by decide

theorem test_witness_DecryptStreamInvertsEncryptStream : (List.replicate 8 1#8).length % 8 = 0 ∧
    1 ≤ (List.replicate 8 1#8).length ∧ ([] : List Byte).length % 8 = 0 := by decide

/-- Three blocks that differ in the middle one. -/
theorem test_witness_TamperingSpoilsOnlyNearbyBlocks :
    let cs : List Block := [⟨1, 2⟩, ⟨3, 4⟩, ⟨5, 6⟩, ⟨7, 8⟩]
    let ds : List Block := [⟨1, 2⟩, ⟨9, 9⟩, ⟨5, 6⟩, ⟨7, 8⟩]
    cs.length = ds.length ∧ (∀ i < 4, i ≠ 1 → cs[i]? = ds[i]?) ∧ (2 : Nat) ≠ 1 ∧ 2 + 1 ≠ 1 := by decide

/-- ENCRYPT of "hello", and an engine that holds its output as input. -/
theorem test_witness_MessageComesBackStripped : hello.length = (holding daveEngine hello).ilen.toNat ∧
    Holds (holding daveEngine hello).ibuf 0 hello ∧ hello.length + 8 ≤ daveEngine.cfg.maxlen ∧ 1 ≤ hello.length ∧
    after (exec .encrypt (holding daveEngine hello)) (fun t => t.olen = (holding daveEngine helloStream).ilen &&
      (List.range 16).all (fun a => (holding daveEngine helloStream).ibuf.read a = t.obuf.read a)) = true := by
  unfold Holds; decide

/-- The empty message in direct mode: ENCRYPT gives the empty output, which an engine with ILEN 0 holds as its input. -/
theorem test_witness_MessageComesBackStripped_empty : ([] : List Byte).length = (direct daveEngine).ilen.toNat ∧
    Holds (direct daveEngine).ibuf 0 [] ∧ ([] : List Byte).length + 8 ≤ (direct daveEngine).cfg.maxlen ∧
    (direct daveEngine).cbc = false ∧ after (exec .encrypt (direct daveEngine)) (fun t => t.olen = (direct daveEngine).ilen) = true := by
  unfold Holds; decide

theorem test_witness_MessageRoundTrip : hello.getLast? = some 0x6f#8 ∧ 0x6f#8 ∉ daveEngine.cfg.ws ∧
    hello.length = (holding daveEngine hello).ilen.toNat ∧ Holds (holding daveEngine hello).ibuf 0 hello ∧
    hello.length + 8 ≤ daveEngine.cfg.maxlen ∧ 1 ≤ hello.length := by
  unfold Holds; decide

/-- The empty message in direct mode has no last byte. -/
theorem test_witness_MessageRoundTrip_empty : ([] : List Byte).length = (direct daveEngine).ilen.toNat ∧
    Holds (direct daveEngine).ibuf 0 [] ∧ ([] : List Byte).length + 8 ≤ (direct daveEngine).cfg.maxlen ∧
    (direct daveEngine).cbc = false ∧ ([] : List Byte).getLast? = none := by
  unfold Holds; decide

theorem test_witness_SetkeySequenceLoadsTheKey :
    ({ base with pending := scriptInputs 0 0 (setkey keyV2) } : State).pending = scriptInputs 0 0 (setkey keyV2) := rfl

/-- The empty salt and one as long as MAXLEN. -/
theorem test_witness_NewengineSequenceDerivesTheKey : ([] : List Byte).length ≤ base.cfg.maxlen ∧
    (List.replicate 32 1#8).length ≤ base.cfg.maxlen ∧
    ({ base with pending := scriptInputs 0 0 (newengine hello) } : State).pending = scriptInputs 0 0 (newengine hello) := by
  decide

end Sys2Proof.Tests
end

section
/-! Decoding: a word that decodes is the encoding of the command it decodes to. -/
namespace Sys2Proof

/-- R62: a command word is its `zero` field above its `op` field. -/
theorem zeroField_append_opField (w : Word) : zeroField w ++ opField w = w := by
  apply BitVec.eq_of_getLsbD_eq
  intro i hi
  rw [BitVec.getLsbD_append]
  by_cases h8 : i < 8
  · simp [opField, h8]
  · have hz : i - 8 < 24 := by omega
    have hx : 8 + (i - 8) = i := by omega
    simp [zeroField, h8, hz, hx]

/-- R63: the opcode map read backwards. -/
theorem opcode_of_decodeOp {op : BitVec 8} {i : Instr} (h : decodeOp op = .ok i) : opcode i = op := by
  unfold decodeOp at h
  split at h
  case h_13 => cases h
  all_goals
    cases h
    exact BitVec.eq_of_toNat_eq (Eq.symm ‹op.toNat = _›)

/-- R62, R63: the decoder accepts only the words the encoder gives. -/
theorem encode_of_decode {w : Word} {i : Instr} (h : decode w = .ok i) : encode i = w := by
  unfold decode at h
  split at h
  · cases h
  · rename_i hz
    rw [← zeroField_append_opField w, not_not.mp hz, encode, opcode_of_decodeOp h]
    rfl

end Sys2Proof
end

section
/-! The command a step runs, and the reset values. -/
namespace Sys2Proof.Machine

variable {s : State}

theorem runCommand_of_decode {w : Word} {i : Instr} (h : decode w = .ok i) (s : State) : runCommand w s = exec i s := by
  rw [runCommand, h]

/-- Settles O5: the transaction is the command transaction of `w`, which runs what `w` decodes to. -/
theorem stepRunsTheDecodedCommand : Obligations.StepRunsTheDecodedCommand := by
  intro s rest w a b i hp hi
  calc step s = runTxn (commandTxn w) (s.taken rest a b) := step_bus hp
    _ = runCommand w (s.taken rest a b) := runTxn_command w _
    _ = exec i (s.taken rest a b) := runCommand_of_decode hi _

/-- R220, R232: what a step does when hardware reset is the oldest input. -/
theorem step_hardwareReset {rest : List HostInput} (h : s.pending = .hardwareReset :: rest) :
    step s = .next (State.resetEngine { s with pending := rest }) := by
  rw [step, takeNext, h]; rfl

/-- R32: RESET brings every register and both buffers to their reset values. -/
theorem resetEngine_hasResetValues (s : State) : HasResetValues s.resetEngine := by
  simp [HasResetValues, zeroKey, State.err, State.stdone, State.stpass, State.cbc]

/-- Settles O15: RESET and hardware reset leave `resetEngine` of some state, and the reset state is
`resetEngine` of itself. -/
theorem resetStateHasTheSpecValues : Obligations.ResetStateHasTheSpecValues := by
  refine ⟨resetEngine_hasResetValues State.reset, fun s t h => ?_, fun s t rest hp h => ?_⟩
  · cases h
    exact resetEngine_hasResetValues s
  · rw [step_hardwareReset hp] at h
    cases h
    exact resetEngine_hasResetValues _

end Sys2Proof.Machine
end

section
/-! The invariant of the engine: every operation keeps it. `{ h with … }` names the parts that an operation touches; the
rest of the invariant is about fields it leaves as they are. -/
namespace Sys2Proof.Machine

variable {s t : State}

theorem resetEngine_inv (s : State) : s.resetEngine.Inv where
  ibufWf := List.Pairwise.nil
  obufWf := List.Pairwise.nil
  ibufFits := fun _ hc => absurd hc List.not_mem_nil
  obufFits := fun _ hc => absurd hc List.not_mem_nil
  ilenLegal := Nat.zero_le _
  olenLegal := Nat.zero_le _
  outputWritten := fun a ha => absurd ha (Nat.not_lt_zero a)
  statusReservedZero := by rw [State.statusReserved, State.resetEngine_status]; decide
  ctrlReservedZero := by rw [State.ctrlReserved, State.resetEngine_ctrl]; decide

/-- Settles O16: the reset state is what a reset leaves. -/
theorem resetStateMeetsTheInvariant : Obligations.ResetStateMeetsTheInvariant := resetEngine_inv State.reset

/-! ### The operations on the state -/

theorem State.Inv.setErr (h : s.Inv) (e : ErrCode) : (s.setErr e).Inv :=
  { h with statusReservedZero := (State.setErr_statusReserved s e).trans h.statusReservedZero }

theorem State.Inv.setKey (h : s.Inv) (k : Key) : (s.setKey k).Inv := { h with }

theorem State.Inv.setBlock (h : s.Inv) (b : Block) : (s.setBlock b).Inv := { h with }

theorem State.Inv.taken (h : s.Inv) (rest : List HostInput) (a b : Word) : (s.taken rest a b).Inv := { h with }

theorem State.Inv.illegal (h : s.Inv) : s.illegal.Inv := h.setErr .illegalRequest

theorem State.setOlen_olen_le (s : State) (n : Nat) : (s.setOlen n).olen.toNat ≤ n := by
  rw [State.setOlen_olen, BitVec.toNat_ofNat]
  exact Nat.mod_le _ _

theorem State.setOutput_olen_le (s : State) (bs : List Byte) : (s.setOutput bs).olen.toNat ≤ bs.length :=
  State.setOlen_olen_le s bs.length

theorem State.extendInput_ilen_le (s : State) (bs : List Byte) :
    (s.extendInput bs).ilen.toNat ≤ s.ilen.toNat + bs.length := by
  rw [State.extendInput_ilen, BitVec.toNat_ofNat]
  exact Nat.mod_le _ _

/-- Every byte below the new OLEN is one of the bytes stored. -/
theorem State.setOutput_read (s : State) (bs : List Byte) {a : Nat} (ha : a < (s.setOutput bs).olen.toNat) :
    (s.setOutput bs).obuf.read a = bs[a]? ∧ a < bs.length := by
  have hlt : a < bs.length := Nat.lt_of_lt_of_le ha (State.setOutput_olen_le s bs)
  exact ⟨by simp [Memory.read_writeBytes, hlt], hlt⟩

/-- A shorter output is still written below its length. -/
theorem State.Inv.setOlen (h : s.Inv) {n : Nat} (hn : n ≤ s.olen.toNat) : (s.setOlen n).Inv := by
  have hle : (s.setOlen n).olen.toNat ≤ s.olen.toNat := (State.setOlen_olen_le s n).trans hn
  exact { h with
    olenLegal := hle.trans h.olenLegal
    outputWritten := fun a ha => h.outputWritten a (Nat.lt_of_lt_of_le ha hle) }

theorem State.Inv.raise (h : s.Inv) (e : ErrCode) : (s.raise e).Inv := (h.setOlen (Nat.zero_le _)).setErr e

/-- Every output that fits into OBUF may be stored: its bytes are the ones below the new OLEN. -/
theorem State.Inv.setOutput (h : s.Inv) {bs : List Byte} (hbs : bs.length ≤ s.cfg.maxlen + 8) : (s.setOutput bs).Inv :=
  { h with
    obufWf := Memory.wf_writeBytes bs 0 h.obufWf
    obufFits := h.obufFits.writeBytes bs (by omega)
    olenLegal := (State.setOutput_olen_le s bs).trans hbs
    outputWritten := fun a ha => by
      obtain ⟨hread, hlt⟩ := State.setOutput_read s bs ha
      rw [hread, List.getElem?_eq_getElem hlt]
      rfl }

/-- The input may grow up to MAXLEN. -/
theorem State.Inv.extendInput (h : s.Inv) {bs : List Byte} (hbs : s.ilen.toNat + bs.length ≤ s.cfg.maxlen) :
    (s.extendInput bs).Inv :=
  { h with
    ibufWf := Memory.wf_writeBytes bs _ h.ibufWf
    ibufFits := h.ibufFits.writeBytes bs hbs
    ilenLegal := (State.extendInput_ilen_le s bs).trans hbs }

/-! ### The commands -/

/-- Padding a length that is at most MAXLEN leads at most to MAXLEN, a multiple of 8 (R5, R150). -/
theorem add_padCount_le_maxlen {n : Nat} {c : Config} (h : n ≤ c.maxlen) : n + padCount n ≤ c.maxlen := by
  obtain ⟨hlt, hmod⟩ := padCount_spec n
  obtain ⟨hmax, -, -⟩ := maxlen_bounds c
  omega

theorem padOp_keeps_inv (h : s.Inv) : (padOp s).Inv := by
  refine (h.extendInput ?_).setErr .ok
  rw [List.length_replicate]
  exact add_padCount_le_maxlen h.ilenLegal

theorem stripOp_keeps_inv (h : s.Inv) (ht : stripOp s = .next t) : t.Inv := by
  obtain ⟨n, hn, rfl⟩ := stripOp_cases ht
  obtain ⟨hle, -, -⟩ := stripLoop_spec _ _ _ _ hn
  exact (h.setOlen hle).setErr .ok

/-- R132: ENCSTR runs past its check on whole blocks only. -/
theorem ilen_mod_eight_of_encryptCheck (h : encryptCheck s = none) : s.ilen.toNat % 8 = 0 := by
  rcases encryptCheck_cases s with ⟨hsome, -⟩ | ⟨-, hmod⟩
  · rw [h] at hsome; cases hsome
  · exact hmod

/-- R134: DECSTR runs past its checks on whole blocks only. -/
theorem ilen_mod_eight_of_decryptCheck (h : decryptCheck s = none) : s.ilen.toNat % 8 = 0 := by
  rcases decryptCheck_cases s with ⟨hsome, -⟩ | ⟨hsome, -⟩ | ⟨-, hmod, -⟩ | ⟨-, hmod, -⟩
  · rw [h] at hsome; cases hsome
  · rw [h] at hsome; cases hsome
  · exact hmod
  · exact hmod

/-- R132: the stream is longer than the input by 8 bytes at most. -/
theorem encstrOp_keeps_inv (h : s.Inv) (ht : encstrOp s = .next t) : t.Inv := by
  rcases encstrOp_cases ht with ⟨e, -, rfl⟩ | ⟨hc, p, hp, rfl⟩
  · exact h.raise e
  · have hmod := ilen_mod_eight_of_encryptCheck hc
    have hlen := encryptStream_length s.k p s.cbc (ivOperand s) (s.ilen.toNat / 8)
      (by rw [inputOperand_length hp]; omega)
    have hilen := h.ilenLegal
    refine (h.setOutput ?_).setErr .ok
    rw [hlen]
    split <;> omega

/-- R134: the plaintext is not longer than the stream. -/
theorem decryptInput_keeps_inv (h : s.Inv) (hc : decryptCheck s = none) (ht : decryptInput s = .next t) : t.Inv := by
  obtain ⟨c, hin, rfl⟩ := decryptInput_cases ht
  have hmod := ilen_mod_eight_of_decryptCheck hc
  have hlen := decryptStream_length s.k c s.cbc (s.ilen.toNat / 8) (by rw [inputOperand_length hin]; omega)
  have hilen := h.ilenLegal
  refine (h.setOutput ?_).setErr .ok
  omega

theorem execDecstr_keeps_inv (h : s.Inv) (ht : execDecstr s = .next t) : t.Inv := by
  rcases execDecstr_cases ht with ⟨e, -, rfl⟩ | ⟨hc, hu⟩
  · exact h.raise e
  · exact decryptInput_keeps_inv h hc hu

theorem execDecrypt_keeps_inv (h : s.Inv) (ht : execDecrypt s = .next t) : t.Inv := by
  rcases execDecrypt_cases ht with ⟨e, -, rfl⟩ | ⟨hc, u, hu, hstrip⟩
  · exact h.raise e
  · exact stripOp_keeps_inv (decryptInput_keeps_inv h hc hu) hstrip

theorem execSelftest_keeps_inv (h : s.Inv) (ht : execSelftest s = .next t) : t.Inv := by
  cases ht
  exact { h with statusReservedZero := (statusAfterSelftest_reserved s.status _).trans h.statusReservedZero }

theorem exec_keeps_inv (h : s.Inv) {i : Instr} (ht : exec i s = .next t) : t.Inv := by
  cases i with
  | keysalt =>
    obtain ⟨salt, -, rfl⟩ := execKeysalt_cases ht
    exact (h.setKey _).setErr .ok
  | keyset => cases ht; exact (h.setKey _).setErr .ok
  | encblk => cases ht; exact (h.setBlock _).setErr .ok
  | decblk => cases ht; exact (h.setBlock _).setErr .ok
  | pad => cases ht; exact padOp_keeps_inv h
  | strip => exact stripOp_keeps_inv h ht
  | encstr => exact encstrOp_keeps_inv h ht
  | decstr => exact execDecstr_keeps_inv h ht
  | encrypt => exact encstrOp_keeps_inv (padOp_keeps_inv h) ht
  | decrypt => exact execDecrypt_keeps_inv h ht
  | selftest => exact execSelftest_keeps_inv h ht
  | reset => cases ht; exact resetEngine_inv s

/-! ### The transactions -/

/-- R175: what a legal register write stores: CTRL, or ILEN up to MAXLEN, or a part of KIN, Y, Z. -/
theorem writeReg_cases {v : Word} {g : Reg} (h : writeReg s v g = some t) :
    t = { s with ctrl := ctrlWritten v } ∨ (v.toNat ≤ s.cfg.maxlen ∧ t = { s with ilen := v }) ∨
      ∃ kin y z, t = { s with kin := kin, y := y, z := z } := by
  cases g with
  | ctrl => exact .inl (Option.some.inj h).symm
  | ilen =>
    simp only [writeReg, writeIlen] at h
    split at h
    · exact .inr (.inl ⟨‹_›, (Option.some.inj h).symm⟩)
    · cases h
  | kin0 | kin1 | kin2 | kin3 | y | z => exact .inr (.inr ⟨_, _, _, (Option.some.inj h).symm⟩)
  | cmd | status | olen | tsec | tsub | k0 | k1 | k2 | k3 => cases h

theorem writeReg_keeps_inv (h : s.Inv) {v : Word} {g : Reg} (ht : writeReg s v g = some t) : t.Inv := by
  rcases writeReg_cases ht with rfl | ⟨hv, rfl⟩ | ⟨kin, y, z, rfl⟩
  · exact { h with ctrlReservedZero := ctrlWritten_reserved v }
  · exact { h with ilenLegal := hv }
  · exact { h with }

/-- R177: a legal write stores its bytes below the limit it was checked against. -/
theorem storedBytes_fit {x : Txn} {limit : Nat} (h : accessLegal x limit = true) :
    x.offset + (storedBytes x).length ≤ limit := by
  simp only [accessLegal, Bool.and_eq_true, Bool.or_eq_true, beq_iff_eq, decide_eq_true_eq] at h
  obtain ⟨hw | ⟨hw, -⟩, hle⟩ := h
  · simpa [storedBytes, hw] using hle
  · simpa [storedBytes, hw] using hle

/-- R177: a legal write of IBUF stays below MAXLEN. -/
theorem State.Inv.writeIbuf (h : s.Inv) {x : Txn} (hx : accessLegal x s.cfg.maxlen = true) :
    State.Inv { s with ibuf := s.ibuf.writeBytes x.offset (storedBytes x) } :=
  { h with
    ibufWf := Memory.wf_writeBytes _ _ h.ibufWf
    ibufFits := h.ibufFits.writeBytes _ (storedBytes_fit hx) }

theorem transact_keeps_inv (h : s.Inv) {x : Txn} {r : Reply} (hr : transact x s = .next r) : r.1.Inv := by
  rcases transact_cases hr with rfl | ⟨-, d, v, rfl⟩ | ⟨-, g, s', hs', rfl⟩ | ⟨-, hl, rfl⟩ | ⟨-, -, i, -, he⟩
  · exact h.illegal
  · exact { h with }
  · exact writeReg_keeps_inv h hs'
  · exact h.writeIbuf hl
  · exact exec_keeps_inv h he

/-- R232: what the host sees of a reply is no part of the engine. -/
theorem observe_keeps_inv {r : Reply} (h : r.1.Inv) (d : Dir) : (observe d r).Inv := by
  cases d with
  | read => exact { h with }
  | write => exact h

/-- Settles O17: a step is idle, a reset, or one transaction, and each keeps the invariant. -/
theorem everyStepKeepsTheInvariant : Obligations.EveryStepKeepsTheInvariant := by
  intro s t h ht
  rcases step_cases ht with ⟨-, rfl⟩ | ⟨rest, -, rfl⟩ | ⟨x, a, b, rest, r, -, hr, rfl⟩
  · exact h
  · exact resetEngine_inv _
  · exact observe_keeps_inv (transact_keeps_inv (h.taken rest a b) hr) x.rw

end Sys2Proof.Machine
end

section
/-! STDONE and STPASS: every command but SELFTEST and RESET keeps them, and so does every transaction that is no command. -/
namespace Sys2Proof.Machine

variable {s t u : State}

theorem SameSelftestBits.trans (h : SameSelftestBits s u) (h' : SameSelftestBits u t) : SameSelftestBits s t := by
  obtain ⟨hd, hp, hr⟩ := h
  obtain ⟨hd', hp', hr'⟩ := h'
  exact ⟨hd'.trans hd, hp'.trans hp, hr'.trans hr⟩

/-- Equal STATUS words have equal bits. -/
theorem sameSelftestBits_of_status (h : t.status = s.status) : SameSelftestBits s t := by
  simp [SameSelftestBits, State.stdone, State.stpass, State.statusReserved, h]

theorem raise_sameSelftestBits (s : State) (e : ErrCode) : SameSelftestBits s (s.raise e) :=
  setErr_sameSelftestBits s (s.setOlen 0) e rfl

theorem encstrOp_sameSelftestBits (h : encstrOp s = .next t) : SameSelftestBits s t := by
  rcases encstrOp_cases h with ⟨e, -, rfl⟩ | ⟨-, p, -, rfl⟩
  · exact raise_sameSelftestBits s e
  · exact setErr_sameSelftestBits s _ .ok rfl

theorem decryptInput_sameSelftestBits (h : decryptInput s = .next t) : SameSelftestBits s t := by
  obtain ⟨c, -, rfl⟩ := decryptInput_cases h
  exact setErr_sameSelftestBits s _ .ok rfl

theorem stripOp_sameSelftestBits (h : stripOp s = .next t) : SameSelftestBits s t := by
  obtain ⟨n, -, rfl⟩ := stripOp_cases h
  exact setErr_sameSelftestBits s _ .ok rfl

theorem padOp_sameSelftestBits (s : State) : SameSelftestBits s (padOp s) := setErr_sameSelftestBits s _ .ok rfl

/-- R22: SELFTEST and RESET apart, a command writes no bit of STATUS but `ERR`. -/
theorem exec_sameSelftestBits {i : Instr} (h : exec i s = .next t) (hself : i ≠ .selftest) (hreset : i ≠ .reset) :
    SameSelftestBits s t := by
  cases i with
  | keysalt =>
    obtain ⟨salt, -, rfl⟩ := execKeysalt_cases h
    exact setErr_sameSelftestBits s _ .ok rfl
  | keyset | encblk | decblk => cases h; exact setErr_sameSelftestBits s _ .ok rfl
  | pad => cases h; exact padOp_sameSelftestBits s
  | strip => exact stripOp_sameSelftestBits h
  | encstr => exact encstrOp_sameSelftestBits h
  | decstr =>
    rcases execDecstr_cases h with ⟨e, -, rfl⟩ | ⟨-, hin⟩
    · exact raise_sameSelftestBits s e
    · exact decryptInput_sameSelftestBits hin
  | encrypt => exact (padOp_sameSelftestBits s).trans (encstrOp_sameSelftestBits h)
  | decrypt =>
    rcases execDecrypt_cases h with ⟨e, -, rfl⟩ | ⟨-, u, hin, hstrip⟩
    · exact raise_sameSelftestBits s e
    · exact (decryptInput_sameSelftestBits hin).trans (stripOp_sameSelftestBits hstrip)
  | selftest => exact absurd rfl hself
  | reset => exact absurd rfl hreset

/-- R175: no register write reaches STATUS. -/
theorem writeReg_status {v : Word} {g : Reg} (h : writeReg s v g = some t) : t.status = s.status := by
  rcases writeReg_cases h with rfl | ⟨-, rfl⟩ | ⟨kin, y, z, rfl⟩ <;> rfl

theorem observe_status (d : Dir) (r : Reply) : (observe d r).status = r.1.status := by cases d <;> rfl

/-- R22: a transaction keeps STDONE and STPASS, or it is a write of the word of SELFTEST or RESET to CMD. -/
theorem transact_selftestBits {x : Txn} {r : Reply} (h : transact x s = .next r) :
    SameSelftestBits s r.1 ∨ (x.rw = .write ∧ x.addr = 0#32 ∧ x.wdata ∈ [0x0000000B#32, 0x0000000C#32]) := by
  rcases transact_cases h with rfl | ⟨-, d, v, rfl⟩ | ⟨-, g, s', hs', rfl⟩ | ⟨-, -, rfl⟩ | ⟨hrw, haddr, i, hi, he⟩
  · exact .inl (setErr_sameSelftestBits s s .illegalRequest rfl)
  · exact .inl (sameSelftestBits_of_status rfl)
  · exact .inl (sameSelftestBits_of_status (writeReg_status hs'))
  · exact .inl (sameSelftestBits_of_status rfl)
  · rw [← encode_of_decode hi]
    by_cases hself : i = .selftest
    · subst hself; exact .inr ⟨hrw, haddr, by decide⟩
    · by_cases hreset : i = .reset
      · subst hreset; exact .inr ⟨hrw, haddr, by decide⟩
      · exact .inl (exec_sameSelftestBits he hself hreset)

/-- Settles O19: an idle step changes nothing, and a transaction that changes the bits is a write of one of the two words. -/
theorem selftestBitsChangeOnlyBySelftestAndReset : Obligations.SelftestBitsChangeOnlyBySelftestAndReset := by
  intro s t ht hne
  rcases step_cases ht with ⟨-, rfl⟩ | ⟨rest, hp, -⟩ | ⟨x, a, b, rest, r, hp, hr, rfl⟩
  · simp at hne
  · exact ⟨_, rest, hp, .inl rfl⟩
  · refine ⟨_, rest, hp, .inr ⟨x, a, b, rfl, ?_⟩⟩
    refine (transact_selftestBits hr).resolve_left fun hsame => ?_
    obtain ⟨hdone, hpass, -⟩ := hsame.trans (sameSelftestBits_of_status (observe_status x.rw r))
    exact hne.elim (absurd hdone) (absurd hpass)

end Sys2Proof.Machine
end

section
/-! The stream commands: their results are functions of their operands. -/
namespace Sys2Proof.Machine

variable {s t u : State}

/-- R64: two states with the same key, mode, parameters and input, whatever else they hold. -/
structure SameOperands (s u : State) : Prop where
  k : u.k = s.k
  cbc : u.cbc = s.cbc
  ilen : u.ilen = s.ilen
  cfg : u.cfg = s.cfg
  input : ∀ a < s.ilen.toNat, u.ibuf.read a = s.ibuf.read a

/-- Two states with the same `ERR`, lengths, parameters and readable output bytes. -/
structure SameResults (t u : State) : Prop where
  err : u.err = t.err
  ilen : u.ilen = t.ilen
  olen : u.olen = t.olen
  cfg : u.cfg = t.cfg
  output : ∀ a < t.olen.toNat, u.obuf.read a = t.obuf.read a

theorem Memory.readBytes_congr {m m' : Memory} {a n : Nat} (h : ∀ i < n, m'.read (a + i) = m.read (a + i)) :
    m'.readBytes a n = m.readBytes a n := by
  ext bs
  rw [Memory.readBytes_eq_some_iff, Memory.readBytes_eq_some_iff]
  refine and_congr_right fun hlen => forall₂_congr fun i hi => ?_
  rw [h i (hlen ▸ hi)]

/-- R153: the stripping loop reads only below the length it starts from. -/
theorem stripLoop_congr (ws : List Byte) {m m' : Memory} : ∀ {n : Nat}, (∀ a < n, m'.read a = m.read a) →
    stripLoop ws m' n = stripLoop ws m n := by
  intro n
  induction n with
  | zero => intro _; rfl
  | succ n ih =>
    intro h
    rw [stripLoop, stripLoop, h n (Nat.lt_succ_self n), ih fun a ha => h a (Nat.lt_succ_of_lt ha)]

/-- R131: in direct mode the stream does not depend on the IV. -/
theorem encryptStream_congr_iv (k : Key) (p : List Byte) {cbc : Bool} {iv iv' : Block} (h : cbc = true → iv' = iv) :
    encryptStream k p cbc iv' = encryptStream k p cbc iv := by
  cases cbc with
  | false => rfl
  | true => rw [h rfl]

theorem inputOperand_congr (h : SameOperands s u) : inputOperand u = inputOperand s := by
  rw [inputOperand, inputOperand, h.ilen]
  exact Memory.readBytes_congr fun i hi => h.input _ (by omega)

theorem encryptCheck_congr (h : SameOperands s u) : encryptCheck u = encryptCheck s := by
  rw [encryptCheck, encryptCheck, h.ilen]

theorem decryptCheck_congr (h : SameOperands s u) : decryptCheck u = decryptCheck s := by
  rw [decryptCheck, decryptCheck, h.ilen, h.cbc]

/-- PAD keeps the agreement: the bytes it appends are the same on both. -/
theorem padOp_sameOperands (h : SameOperands s u) : SameOperands (padOp s) (padOp u) where
  k := h.k
  cbc := h.cbc
  ilen := by simp [padOp, h.ilen]
  cfg := h.cfg
  input := fun a ha => by
    have hlt : a < s.ilen.toNat + padCount s.ilen.toNat := by
      have hle := State.extendInput_ilen_le s (List.replicate (padCount s.ilen.toNat) padByte)
      rw [List.length_replicate] at hle
      exact Nat.lt_of_lt_of_le ha hle
    simp only [padOp, State.setErr_ibuf, State.extendInput_ibuf, h.ilen, Memory.read_writeBytes,
      List.length_replicate]
    split
    · rfl
    · exact h.input a (by omega)

/-- R194: a raised error leaves no output, and the code and ILEN are the same on both. -/
theorem raise_sameResults (h : SameOperands s u) (e : ErrCode) : SameResults (s.raise e) (u.raise e) where
  err := (State.raise_err u e).trans (State.raise_err s e).symm
  ilen := h.ilen
  olen := rfl
  cfg := h.cfg
  output := fun a ha => absurd ha (Nat.not_lt_zero a)

/-- The same bytes stored as output are the same results: every byte below the new OLEN is one of them. -/
theorem setOutput_sameResults (h : SameOperands s u) (bs : List Byte) :
    SameResults ((s.setOutput bs).setErr .ok) ((u.setOutput bs).setErr .ok) where
  err := (State.setErr_err _ _).trans (State.setErr_err _ _).symm
  ilen := h.ilen
  olen := rfl
  cfg := h.cfg
  output := fun _ ha => (State.setOutput_read u bs ha).1.trans (State.setOutput_read s bs ha).1.symm

/-- ENCSTR's body, alone or after PAD. -/
theorem encstrOp_sameResults (h : SameOperands s u) (hiv : s.cbc = true → ivOperand u = ivOperand s)
    (ht : encstrOp s = .next t) : ∃ t', encstrOp u = .next t' ∧ SameResults t t' := by
  rcases encstrOp_cases ht with ⟨e, he, rfl⟩ | ⟨hc, p, hp, rfl⟩
  · exact ⟨_, by rw [encstrOp, encryptCheck_congr h, he], raise_sameResults h e⟩
  · refine ⟨_, ?_, setOutput_sameResults h _⟩
    rw [encstrOp, encryptCheck_congr h, hc, ← encryptStream_congr_iv s.k p hiv]
    simp only [encryptInput, inputOperand_congr h, hp, h.k, h.cbc]

theorem decryptInput_sameResults (h : SameOperands s u) (ht : decryptInput s = .next t) :
    ∃ t', decryptInput u = .next t' ∧ SameResults t t' := by
  obtain ⟨c, hc, rfl⟩ := decryptInput_cases ht
  refine ⟨_, ?_, setOutput_sameResults h _⟩
  simp only [decryptInput, inputOperand_congr h, hc, h.k, h.cbc]

theorem execDecstr_sameResults (h : SameOperands s u) (ht : execDecstr s = .next t) :
    ∃ t', execDecstr u = .next t' ∧ SameResults t t' := by
  rcases execDecstr_cases ht with ⟨e, he, rfl⟩ | ⟨hc, hin⟩
  · exact ⟨_, by rw [execDecstr, decryptCheck_congr h, he], raise_sameResults h e⟩
  · obtain ⟨t', ht', hres⟩ := decryptInput_sameResults h hin
    exact ⟨t', by rw [execDecstr, decryptCheck_congr h, hc]; exact ht', hres⟩

/-- STRIP on the same output cuts it at the same place. -/
theorem stripOp_sameResults (h : SameResults s u) (ht : stripOp s = .next t) :
    ∃ t', stripOp u = .next t' ∧ SameResults t t' := by
  obtain ⟨n, hn, rfl⟩ := stripOp_cases ht
  obtain ⟨hle, -, -⟩ := stripLoop_spec _ _ _ _ hn
  have hn' : stripLoop u.cfg.ws u.obuf u.olen.toNat = some n := by
    rw [h.cfg, h.olen, stripLoop_congr _ h.output, hn]
  refine ⟨(u.setOlen n).setErr .ok, by rw [stripOp, hn'], ?_⟩
  exact
    { err := (State.setErr_err _ _).trans (State.setErr_err _ _).symm
      ilen := h.ilen
      olen := rfl
      cfg := h.cfg
      output := fun a ha => h.output a (Nat.lt_of_lt_of_le ha ((State.setOlen_olen_le s n).trans hle)) }

theorem execDecrypt_sameResults (h : SameOperands s u) (ht : execDecrypt s = .next t) :
    ∃ t', execDecrypt u = .next t' ∧ SameResults t t' := by
  rcases execDecrypt_cases ht with ⟨e, he, rfl⟩ | ⟨hc, v, hv, hstrip⟩
  · exact ⟨_, by rw [execDecrypt, decryptCheck_congr h, he], raise_sameResults h e⟩
  · obtain ⟨v', hv', hmid⟩ := decryptInput_sameResults h hv
    obtain ⟨t', ht', hres⟩ := stripOp_sameResults hmid hstrip
    exact ⟨t', by rw [execDecrypt, decryptCheck_congr h, hc]; simp only [hv', andThen, ht'], hres⟩

/-- R31, R131: a stream command on the same operands, with the same time words where it reads them. -/
theorem exec_stream_sameResults {i : Instr} (hi : i ∈ [Instr.encstr, .decstr, .encrypt, .decrypt])
    (h : SameOperands s u) (hiv : s.cbc = true → (i = .encstr ∨ i = .encrypt) → ivOperand u = ivOperand s)
    (ht : exec i s = .next t) : ∃ t', exec i u = .next t' ∧ SameResults t t' := by
  simp only [List.mem_cons, List.not_mem_nil, or_false] at hi
  rcases hi with rfl | rfl | rfl | rfl
  · exact encstrOp_sameResults h (fun hcbc => hiv hcbc (.inl rfl)) ht
  · exact execDecstr_sameResults h ht
  · exact encstrOp_sameResults (padOp_sameOperands h) (fun hcbc => hiv hcbc (.inr rfl)) ht
  · exact execDecrypt_sameResults h ht

/-- Settles O38: the premises are the agreement on the operands, and the results of the two runs agree. -/
theorem streamResultsDependOnTheirOperandsOnly : Obligations.StreamResultsDependOnTheirOperandsOnly := by
  intro i s u t hi hk hcbc hilen hcfg htime hin ht
  have hiv : s.cbc = true → (i = .encstr ∨ i = .encrypt) → ivOperand u = ivOperand s := fun hc hi' => by
    obtain ⟨hsec, hsub⟩ := htime hc hi'
    rw [ivOperand, ivOperand, hsec, hsub]
  obtain ⟨t', ht', hres⟩ := exec_stream_sameResults hi ⟨hk, hcbc, hilen, hcfg, hin⟩ hiv ht
  exact ⟨t', ht', hres.err, hres.ilen, hres.olen, hres.output⟩

end Sys2Proof.Machine
end

section
/-! Script statements on IBUF, one at a time and in a row, and the agreement of the two widths. -/
namespace Sys2Proof.Machine

variable {s : State} {a b v : Word} {rest : List HostInput} {off n : Nat}

/-- R41, R48: an access to IBUF by its symbolic address is legal when the offset is aligned and the bytes are within. -/
theorem accessLegal_ibufAddr {limit : Nat} (hoff : off < 2 ^ 30) (hw : n = 1 ∨ (n = 4 ∧ off % 4 = 0))
    (hl : off + n ≤ limit) (d : Dir) :
    accessLegal { rw := d, width := n, addr := ibufAddr off, wdata := v } limit = true := by
  simp only [accessLegal, offset_ibufAddr hoff, Bool.and_eq_true, Bool.or_eq_true, beq_iff_eq, decide_eq_true_eq]
  exact ⟨hw, hl⟩

/-- MAXLEN is within the 30 bits of an offset, so an access below MAXLEN stays in IBUF. -/
theorem lt_of_add_le_maxlen {c : Config} (h : off + n ≤ c.maxlen) : off < 2 ^ 30 := by
  obtain ⟨-, -, hmax⟩ := maxlen_bounds c
  omega

/-- R177: a legal read of IBUF bytes that are written replies with them and draws no free byte. -/
theorem transact_readIbuf {bs : List Byte} (hw : n = 1 ∨ (n = 4 ∧ off % 4 = 0)) (hl : off + n ≤ s.cfg.maxlen)
    (hbs : s.ibuf.readBytes off n = some bs) :
    transact { rw := .read, width := n, addr := ibufAddr off, wdata := v } s = .next (s, replyWord bs) := by
  have hoff := lt_of_add_le_maxlen hl
  rw [transact_ibuf (spaceOf_ibufAddr hoff _ _ _), accessIbuf, if_pos (accessLegal_ibufAddr hoff hw hl _)]
  simp [readBuffer, offset_ibufAddr hoff, drawBytes_of_written _ _ _ _ _ hbs]

/-- R177: a legal write of a word to IBUF stores its bytes. -/
theorem transact_writeIbufWord (halign : off % 4 = 0) (hl : off + 4 ≤ s.cfg.maxlen) :
    transact { rw := .write, width := 4, addr := ibufAddr off, wdata := v } s =
      .next ({ s with ibuf := s.ibuf.writeBytes off (wordToBytes v) }, 0) := by
  have hoff := lt_of_add_le_maxlen hl
  rw [transact_ibuf (spaceOf_ibufAddr hoff _ _ _), accessIbuf,
    if_pos (accessLegal_ibufAddr hoff (.inr ⟨rfl, halign⟩) hl _)]
  simp [offset_ibufAddr hoff, storedBytes]

/-- R177, R232: a step whose input is such a read observes the bytes. -/
theorem step_readIbuf {bs : List Byte} (hw : n = 1 ∨ (n = 4 ∧ off % 4 = 0)) (hl : off + n ≤ s.cfg.maxlen)
    (hbs : s.ibuf.readBytes off n = some bs)
    (h : s.pending = .bus { rw := .read, width := n, addr := ibufAddr off, wdata := v } a b :: rest) :
    step s = .next { s.taken rest a b with observed := s.observed ++ [replyWord bs] } :=
  step_bus_next h (transact_readIbuf hw hl hbs)

/-- R68: a statement `rb` of a written byte of IBUF. -/
theorem step_rbIbuf {c : Byte} (h : s.pending = .bus (Stmt.rbIbuf off).txn a b :: rest) (hl : off + 1 ≤ s.cfg.maxlen)
    (hc : s.ibuf.read off = some c) :
    step s = .next { s.taken rest a b with observed := s.observed ++ [c.setWidth 32] } :=
  step_readIbuf (bs := [c]) (.inl rfl) hl (by simp [Memory.readBytes, hc]) h

/-- R68: a statement `ww` within IBUF. -/
theorem step_ww (h : s.pending = .bus (Stmt.ww off v).txn a b :: rest) (halign : off % 4 = 0)
    (hl : off + 4 ≤ s.cfg.maxlen) :
    step s = .next { s.taken rest a b with ibuf := s.ibuf.writeBytes off (wordToBytes v) } :=
  step_bus_next h (transact_writeIbufWord halign hl)

/-! ### Runs of byte statements -/

/-- The `rb` statements that read `n` bytes of IBUF, from offset `off` on. -/
def readAllIbuf : Nat → Nat → List Stmt
  | _, 0 => []
  | off, n + 1 => .rbIbuf off :: readAllIbuf (off + 1) n

theorem Holds.head {m : Memory} {c : Byte} {bs : List Byte} (h : Holds m off (c :: bs)) : m.read off = some c :=
  h 0 (Nat.succ_pos _)

theorem Holds.tail {m : Memory} {c : Byte} {bs : List Byte} (h : Holds m off (c :: bs)) : Holds m (off + 1) bs := by
  intro i hi
  rw [Nat.add_right_comm]
  exact h (i + 1) (Nat.succ_lt_succ hi)

/-- Reading the bytes of IBUF one by one observes them in order; the ports carry what the last transaction brought. -/
theorem run_readAllIbuf (k : Nat) (bs : List Byte) : ∀ {s : State} {off : Nat},
    s.pending = scriptInputs a b (readAllIbuf off bs.length) ++ rest → off + bs.length ≤ s.cfg.maxlen →
      Holds s.ibuf off bs →
        ∃ tsec tsub, Host.Core.run Sys2Proof.core (k + bs.length) s = Host.Core.run Sys2Proof.core k
          { s with pending := rest, tsec := tsec, tsub := tsub, observed := s.observed ++ bs.map (·.setWidth 32) } := by
  induction bs with
  | nil =>
    intro s off hp _ _
    have hp : s.pending = rest := hp
    exact ⟨s.tsec, s.tsub, by simp [← hp]⟩
  | cons c bs ih =>
    intro s off hp hl hbs
    rw [List.length_cons] at hl
    have hstep := step_rbIbuf hp (by omega) hbs.head
    obtain ⟨tsec, tsub, hrun⟩ := ih (s := { s.taken _ a b with observed := s.observed ++ [c.setWidth 32] }) rfl
      (show off + 1 + bs.length ≤ s.cfg.maxlen by omega) hbs.tail
    refine ⟨tsec, tsub, (run_core_succ hstep).trans (hrun.trans ?_)⟩
    simp [State.taken]

/-- R69: the `wb` statements of `load` store the bytes; the ports carry what the last transaction brought. -/
theorem run_writeAll (k : Nat) (bs : List Byte) : ∀ {s : State} {off : Nat},
    s.pending = scriptInputs a b (writeAll off bs) ++ rest → off + bs.length ≤ s.cfg.maxlen →
      ∃ tsec tsub, Host.Core.run Sys2Proof.core (k + bs.length) s = Host.Core.run Sys2Proof.core k
        { s with pending := rest, tsec := tsec, tsub := tsub, ibuf := s.ibuf.writeBytes off bs } := by
  induction bs with
  | nil =>
    intro s off hp _
    have hp : s.pending = rest := hp
    exact ⟨s.tsec, s.tsub, by simp [← hp, Memory.writeBytes]⟩
  | cons c bs ih =>
    intro s off hp hl
    rw [List.length_cons] at hl
    have hstep := step_wb hp (by omega)
    obtain ⟨tsec, tsub, hrun⟩ := ih (s := { s.taken _ a b with ibuf := s.ibuf.write off c }) rfl
      (show off + 1 + bs.length ≤ s.cfg.maxlen by omega)
    exact ⟨tsec, tsub, (run_core_succ hstep).trans hrun⟩

/-- Settles O13: whichever width writes, IBUF then holds the four bytes most significant first, and the other width reads
them back. -/
theorem mixedWidthViewsAgree : Obligations.MixedWidthViewsAgree := by
  intro s off w a b b0 b1 b2 b3 halign hl
  refine ⟨fun hp => ?_, fun hp => ?_⟩
  · have hstep := step_ww hp halign hl
    obtain ⟨tsec, tsub, hrun⟩ := run_readAllIbuf (rest := []) 0 (wordToBytes w)
      (s := { s.taken _ a b with ibuf := s.ibuf.writeBytes off (wordToBytes w) }) rfl hl
      (Memory.holds_writeBytes s.ibuf off (wordToBytes w))
    exact ⟨_, (run_core_succ hstep).trans hrun, rfl⟩
  · obtain ⟨tsec, tsub, hrun⟩ := run_writeAll 1 [b0, b1, b2, b3] hp hl
    have hread := (Memory.readBytes_eq_some_iff 4 _ off _).mpr ⟨rfl, Memory.holds_writeBytes s.ibuf off [b0, b1, b2, b3]⟩
    exact ⟨_, hrun.trans (run_core_succ (step_readIbuf (.inr ⟨rfl, halign⟩) hl hread rfl)), rfl⟩

end Sys2Proof.Machine
end

section
/-! The opcode map: the decoder accepts a word exactly when the encoder gives it. -/
namespace Sys2Proof

/-- R62, R63: what the encoder gives decodes to the command encoded. -/
theorem decode_encode (i : Instr) : decode (encode i) = .ok i := by cases i <;> rfl

theorem decode_eq_ok_iff {w : Word} {i : Instr} : decode w = .ok i ↔ w = encode i := by
  constructor
  · intro h
    exact (encode_of_decode h).symm
  · rintro rfl
    exact decode_encode i

/-- R62: as a number a command word is its `op`. -/
theorem eq_encode_iff {w : Word} {i : Instr} : w = encode i ↔ w.toNat = (opcode i).toNat := by
  rw [← BitVec.toNat_inj, encode, BitVec.toNat_append]
  simp

/-- R63, R66: the opcodes that are defined. -/
theorem opcode_bounds (i : Instr) : 0x01 ≤ (opcode i).toNat ∧ (opcode i).toNat ≤ 0x0C := by cases i <;> decide

/-- Settles O1: the twelve words are the encodings of the commands. -/
theorem commandWordsDecodeToTheirCommands : Obligations.CommandWordsDecodeToTheirCommands :=
  ⟨decode_encode .keysalt, decode_encode .keyset, decode_encode .encblk, decode_encode .decblk, decode_encode .pad,
    decode_encode .strip, decode_encode .encstr, decode_encode .decstr, decode_encode .encrypt, decode_encode .decrypt,
    decode_encode .selftest, decode_encode .reset⟩

/-- Settles O2: a word decodes to `i` exactly when its number is the opcode of `i`, and the row of the map for `i` names
that number. -/
theorem decodeAcceptsExactlyTheOpcodeMap : Obligations.DecodeAcceptsExactlyTheOpcodeMap := by
  intro w i
  rw [decode_eq_ok_iff, eq_encode_iff]
  cases i <;> simp [opcode]

/-- Settles O3: `decode` and `encode` undo each other. -/
theorem decodeAndEncodeAgree : Obligations.DecodeAndEncodeAgree :=
  ⟨fun i _ => decode_encode i, fun _ _ => encode_of_decode⟩

end Sys2Proof
end

section
/-! The register map: an offset is in it exactly when it is the offset of a register. -/
namespace Sys2Proof

/-- R61: each register is found at its offset. -/
theorem regAt_offset (r : Reg) : regAt r.offset = some r := by cases r <;> rfl

theorem regAt_eq_some_iff {off : Nat} {r : Reg} : regAt off = some r ↔ off = r.offset := by
  constructor
  · intro h
    unfold regAt at h
    split at h
    case h_18 => cases h
    all_goals
      cases h
      rfl
  · rintro rfl
    exact regAt_offset r

theorem regAt_eq_none_iff {off : Nat} : regAt off = none ↔ ∀ r : Reg, off ≠ r.offset := by
  simp only [Option.eq_none_iff_forall_ne_some, ne_eq, regAt_eq_some_iff]

/-- R61: the offsets of the map are multiples of 4 below 0x48, without the reserved one. -/
theorem Reg.offset_bounds (r : Reg) : r.offset % 4 = 0 ∧ r.offset ≠ 0x1C ∧ r.offset < 0x48 := by cases r <;> decide

/-- Settles O4: the row of the table for a register names its offset. -/
theorem registerMapIsExact : Obligations.RegisterMapIsExact := by
  refine ⟨fun off r => ?_, regAt_offset⟩
  rw [regAt_eq_some_iff]
  cases r <;> simp [Reg.offset]

end Sys2Proof
end

section
/-! Illegal requests: in each of the ways of R66, R176 and R177 a transaction ends in `illegalReply`. -/
namespace Sys2Proof.Machine

variable {s : State} {x : Txn}

/-- R48, R60: no space takes an access of this width at this offset. -/
def IllFormed (x : Txn) : Prop := (x.width ≠ 1 ∧ x.width ≠ 4) ∨ (x.width = 4 ∧ x.offset % 4 ≠ 0)

theorem accessLegal_illFormed (h : IllFormed x) (limit : Nat) : accessLegal x limit = false := by
  rcases h with ⟨h1, h4⟩ | ⟨h4, hoff⟩
  · simp [accessLegal, h1, h4]
  · simp [accessLegal, h4, hoff]

theorem accessLegal_outOfRange {limit : Nat} (h : limit < x.offset + x.width) : accessLegal x limit = false := by
  simp [accessLegal, h]

/-! ### The buffers -/

theorem accessIbuf_illegal (h : accessLegal x s.cfg.maxlen = false) : accessIbuf x s = illegalReply s := by
  simp [accessIbuf, h]

/-- R177: OBUF takes no write. -/
theorem accessObuf_write (h : x.rw = .write) : accessObuf x s = illegalReply s := by
  rw [accessObuf, h]

theorem accessObuf_illegal (h : accessLegal x s.olen.toNat = false) : accessObuf x s = illegalReply s := by
  unfold accessObuf
  split
  · simp [h]
  · rfl

/-! ### The registers -/

theorem accessReg_illFormed (h : IllFormed x) : accessReg x s = .next (illegalReply s) := by
  refine accessReg_illegal (fun hw => regAt_eq_none_iff.mpr fun r hr => ?_) s
  have := r.offset_bounds
  rcases h with ⟨-, h4⟩ | ⟨-, hoff⟩
  · exact h4 hw
  · omega

/-- R61: the offsets of REG that hold no register. -/
theorem accessReg_reserved (h : x.offset = 0x1C ∨ 0x48 ≤ x.offset) : accessReg x s = .next (illegalReply s) := by
  refine accessReg_illegal (fun _ => regAt_eq_none_iff.mpr fun r hr => ?_) s
  have := r.offset_bounds
  omega

/-- What is illegal at a register with the right width is illegal there with every width. -/
theorem accessReg_illegal_at {r : Reg} (hoff : x.offset = r.offset) (h : accessRegister r x s = .next (illegalReply s)) :
    accessReg x s = .next (illegalReply s) := by
  by_cases hw : x.width = 4
  · rw [accessReg_at hw (regAt_eq_some_iff.mpr hoff), h]
  · exact accessReg_illegal (fun h4 => absurd h4 hw) s

/-- R176: CMD cannot be read. -/
theorem accessRegister_readCmd (hrw : x.rw = .read) : accessRegister .cmd x s = .next (illegalReply s) := by
  rw [accessRegister, hrw]; rfl

/-- R176: a write that the register does not take. -/
theorem accessRegister_write_none {r : Reg} (hrw : x.rw = .write) (hr : r ≠ .cmd) (h : writeReg s x.wdata r = none) :
    accessRegister r x s = .next (illegalReply s) := by
  rw [accessRegister, hrw]
  simp [hr, writeRegister, h]

/-- R61: the registers of the read-only rows take no write. -/
theorem writeReg_readOnly {r : Reg} (h : r.offset ∈ [0x04, 0x10, 0x14, 0x18, 0x30, 0x34, 0x38, 0x3C]) (s : State) (v : Word) :
    r ≠ .cmd ∧ writeReg s v r = none := by
  cases r with
  | status | olen | tsec | tsub | k0 | k1 | k2 | k3 => exact ⟨by decide, rfl⟩
  | cmd | ctrl | ilen | kin0 | kin1 | kin2 | kin3 | y | z => exact absurd h (by decide)

theorem accessReg_writeReadOnly (hrw : x.rw = .write) (hoff : x.offset ∈ [0x04, 0x10, 0x14, 0x18, 0x30, 0x34, 0x38, 0x3C]) :
    accessReg x s = .next (illegalReply s) := by
  cases hr : regAt x.offset with
  | none => exact accessReg_illegal (fun _ => hr) s
  | some r =>
    rw [regAt_eq_some_iff] at hr
    obtain ⟨hcmd, hnone⟩ := writeReg_readOnly (hr ▸ hoff) s x.wdata
    exact accessReg_illegal_at hr (accessRegister_write_none hrw hcmd hnone)

/-- R176: ILEN takes no value above MAXLEN. -/
theorem writeIlen_of_gt {v : Word} (h : s.cfg.maxlen < v.toNat) : writeReg s v .ilen = none := if_neg (by omega)

/-- R66 (a), (b): a word whose number is no opcode is an illegal request. -/
theorem runCommand_illegal {w : Word} (h : w.toNat = 0 ∨ 0x0D ≤ w.toNat) (s : State) : runCommand w s = .next s.illegal := by
  cases hd : decode w with
  | error e => rw [runCommand, hd]
  | ok i =>
    have hw := eq_encode_iff.mp (decode_eq_ok_iff.mp hd)
    have := opcode_bounds i
    omega

theorem accessRegister_illegalWord (hrw : x.rw = .write) (h : x.wdata.toNat = 0 ∨ 0x0D ≤ x.wdata.toNat) :
    accessRegister .cmd x s = .next (illegalReply s) := by
  simp only [accessRegister, hrw, runCommand_illegal h, if_true]
  rfl

/-! ### All spaces -/

theorem transact_illFormed (h : IllFormed x) : transact x s = .next (illegalReply s) := by
  unfold transact
  split
  · exact accessReg_illFormed h
  · rw [accessIbuf_illegal (accessLegal_illFormed h _)]
  · rw [accessObuf_illegal (accessLegal_illFormed h _)]
  · rfl

/-- R66, R176, R177, R195: every illegal access is answered by `illegalReply`. -/
theorem transact_illegal (h : IllegalAccess s x) : transact x s = .next (illegalReply s) := by
  simp only [IllegalAccess, ← offset_eq] at h
  rcases h with hw | hal | hsp | ⟨hsp, hw⟩ | ⟨hsp, hoff⟩ | ⟨hsp, hrw, hoff⟩ | ⟨hsp, hrw, hoff⟩ | ⟨hsp, hrw, hoff, hv⟩ |
    ⟨hsp, hrw, hoff, hv⟩ | ⟨hsp, hlim⟩ | ⟨hsp, hrw⟩ | ⟨hsp, hlim⟩
  · exact transact_illFormed (.inl hw)
  · exact transact_illFormed (.inr hal)
  · exact transact_reserved hsp s
  · rw [transact_reg hsp, accessReg_illegal (by omega)]
  · rw [transact_reg hsp, accessReg_reserved hoff]
  · rw [transact_reg hsp, accessReg_illegal_at (r := .cmd) hoff (accessRegister_readCmd hrw)]
  · rw [transact_reg hsp, accessReg_writeReadOnly hrw hoff]
  · rw [transact_reg hsp,
      accessReg_illegal_at (r := .ilen) hoff (accessRegister_write_none hrw (by decide) (writeIlen_of_gt hv))]
  · rw [transact_reg hsp, accessReg_illegal_at (r := .cmd) hoff (accessRegister_illegalWord hrw hv)]
  · rw [transact_ibuf hsp, accessIbuf_illegal (accessLegal_outOfRange hlim)]
  · rw [transact_obuf hsp, accessObuf_write hrw]
  · rw [transact_obuf hsp, accessObuf_illegal (accessLegal_outOfRange hlim)]

/-- Settles O7: the step is the illegal reply, observed, and `State.illegal` writes nothing but `ERR`. -/
theorem illegalRequestsSetErrOnly : Obligations.IllegalRequestsSetErrOnly := by
  intro s rest x a b hp hx
  refine ⟨_, step_bus_next hp (transact_illegal (s := s.taken rest a b) hx), ?_⟩
  have herr := State.illegal_err (s.taken rest a b)
  have hself := setErr_sameSelftestBits s (s.taken rest a b) .illegalRequest rfl
  cases x.rw <;>
    exact ⟨herr, hself, rfl, rfl, rfl, rfl, rfl, rfl, rfl, fun _ => rfl, fun _ => rfl, rfl, rfl, rfl, rfl, rfl, rfl⟩

end Sys2Proof.Machine
end

section
/-! The host sequences `setkey` and `newengine` of R69, statement by statement. -/
namespace Sys2Proof.Machine

variable {s : State} {a b : Word} {rest : List HostInput}

/-! ### Statements -/

/-- R68: a statement `cmd` runs its command. -/
theorem step_cmd {i : Instr} (h : s.pending = .bus (Stmt.cmd i).txn a b :: rest) : step s = exec i (s.taken rest a b) :=
  stepRunsTheDecodedCommand s rest (encode i) a b i h (decode_encode i)

theorem scriptInputs_append (p q : List Stmt) : scriptInputs a b (p ++ q) = scriptInputs a b p ++ scriptInputs a b q :=
  List.map_append

/-- R175: ILEN takes a value up to MAXLEN. -/
theorem writeIlen_of_le {v : Word} (h : v.toNat ≤ s.cfg.maxlen) : writeReg s v .ilen = some { s with ilen := v } := if_pos h

/-- A length up to MAXLEN fits a word. -/
theorem toNat_ofNat_of_le_maxlen {n : Nat} {c : Config} (h : n ≤ c.maxlen) : (BitVec.ofNat 32 n).toNat = n := by
  obtain ⟨-, -, hmax⟩ := maxlen_bounds c
  rw [BitVec.toNat_ofNat, Nat.mod_eq_of_lt (by omega)]

/-- R32: RESET selects the chained mode. -/
theorem resetEngine_cbc (s : State) : s.resetEngine.cbc = true := by simp [State.cbc]

/-! ### The key of a salt in IBUF -/

theorem keyByte_take (salt : List Byte) {i : Nat} (hi : i < 16) : keyByte (salt.take 16) i = keyByte salt i := by
  by_cases hl : salt.length ≤ 16
  · rw [List.take_of_length_le hl]
  · have htake : (salt.take 16).length = 16 := by rw [List.length_take]; omega
    rw [keyByte, keyByte, htake, Nat.mod_eq_of_lt hi, Nat.mod_eq_of_lt (by omega)]
    simp [List.getD_eq_getElem?_getD, List.getElem?_take_of_lt hi]

theorem keyWord_take (salt : List Byte) {j : Nat} (hj : j < 4) : keyWord (salt.take 16) j = keyWord salt j := by
  simp only [keyWord]
  rw [keyByte_take salt (by omega), keyByte_take salt (by omega), keyByte_take salt (by omega), keyByte_take salt (by omega)]

/-- R100, R101: only the first 16 bytes of a salt matter. -/
theorem deriveKey_take (salt : List Byte) : deriveKey (salt.take 16) = deriveKey salt := by
  have hempty : (salt.take 16).isEmpty = salt.isEmpty := by cases salt <;> rfl
  rw [deriveKey, deriveKey, hempty, keyWord_take salt (by decide), keyWord_take salt (by decide),
    keyWord_take salt (by decide), keyWord_take salt (by decide)]

theorem Holds.take {m : Memory} {off : Nat} {bs : List Byte} (h : Holds m off bs) (n : Nat) : Holds m off (bs.take n) := by
  intro i hi
  rw [List.length_take] at hi
  rw [h i (by omega), List.getElem?_take_of_lt (by omega)]

/-- R102: KEYSALT on a salt of which IBUF holds the bytes it reads. -/
theorem execKeysalt_of_holds {salt : List Byte} (hlen : salt.length = s.ilen.toNat) (h : Holds s.ibuf 0 (salt.take 16)) :
    execKeysalt s = .next ((s.setKey (deriveKey salt)).setErr .ok) := by
  have hsalt : saltOperand s = some (salt.take 16) :=
    (Memory.readBytes_eq_some_iff _ _ _ _).mpr ⟨by rw [List.length_take, hlen, Nat.min_comm], h⟩
  rw [execKeysalt, hsalt, ← deriveKey_take salt]

/-! ### The sequences -/

/-- R69: `load` puts the bytes and their number in place. -/
theorem run_load (k : Nat) {bs : List Byte} (hp : s.pending = scriptInputs a b (load bs) ++ rest)
    (hl : bs.length ≤ s.cfg.maxlen) :
    Host.Core.run Sys2Proof.core (bs.length + 1 + k) s = Host.Core.run Sys2Proof.core k
      { s.taken rest a b with ibuf := s.ibuf.writeBytes 0 bs, ilen := BitVec.ofNat 32 bs.length } := by
  rw [load, scriptInputs_append, List.append_assoc] at hp
  obtain ⟨tsec, tsub, hwrites⟩ := run_writeAll (k + 1) bs hp (by omega)
  have hlen : (BitVec.ofNat 32 bs.length).toNat ≤ s.cfg.maxlen := (toNat_ofNat_of_le_maxlen hl).trans_le hl
  rw [show bs.length + 1 + k = k + 1 + bs.length by omega]
  exact hwrites.trans (run_core_succ (step_wr (by decide) rfl (writeIlen_of_le hlen)))

/-- Settles O55: the four writes fill KIN, and KEYSET copies it. -/
theorem setkeySequenceLoadsTheKey : Obligations.SetkeySequenceLoadsTheKey := by
  intro s w a b hp
  exact ⟨_,
    (run_core_succ (step_wr (r := .kin0) (by decide) hp rfl)).trans <|
      (run_core_succ (step_wr (r := .kin1) (by decide) rfl rfl)).trans <|
      (run_core_succ (step_wr (r := .kin2) (by decide) rfl rfl)).trans <|
      (run_core_succ (step_wr (r := .kin3) (by decide) rfl rfl)).trans <|
      run_core_succ (step_cmd (i := .keyset) rfl),
    rfl, rfl, State.setErr_err _ .ok, rfl⟩

/-- Settles O56: RESET gives chained mode and empty buffers, `load` puts the salt and its length in place, and KEYSALT
derives the key from them. -/
theorem newengineSequenceDerivesTheKey : Obligations.NewengineSequenceDerivesTheKey := by
  intro s salt a b hl hp
  have hlen := toNat_ofNat_of_le_maxlen hl
  have hholds := Memory.holds_writeBytes [] 0 salt
  have hreset := step_cmd (i := .reset) hp
  have hload := run_load 1 (bs := salt) (s := (s.taken (scriptInputs a b (load salt ++ [.cmd .keysalt])) a b).resetEngine)
    (scriptInputs_append _ _) hl
  exact ⟨_,
    (run_core_succ hreset).trans <| hload.trans <|
      run_core_succ <| (step_cmd (i := .keysalt) rfl).trans (execKeysalt_of_holds hlen.symm (hholds.take 16)),
    rfl, resetEngine_cbc s, State.setErr_err _ .ok, hlen, hholds, rfl⟩

end Sys2Proof.Machine
end

section
/-! Bounded Arithmetic (spec/40_arith_codec.md R83 to R87) on the values of the words, and what undoes what. -/
namespace Sys2Proof.Machine

theorem add32_toNat (a b : Word) : (add32 a b).toNat = (a.toNat + b.toNat) % 2 ^ 32 := BitVec.toNat_add a b

theorem neg32_toNat (a : Word) : (neg32 a).toNat = (2 ^ 32 - a.toNat) % 2 ^ 32 := BitVec.toNat_neg a

@[simp] theorem add32_neg32_self (a : Word) : add32 a (neg32 a) = 0 := BitVec.add_right_neg a

/-- R84: adding the negated operand is subtraction. -/
@[simp] theorem add32_add32_neg32 (a b : Word) : add32 (add32 a b) (neg32 b) = a := add_neg_cancel_right a b

theorem rshift32_toNat (v : Word) (n : Nat) : (rshift32 v n).toNat = v.toNat / 2 ^ n := by
  rw [rshift32, BitVec.toNat_ushiftRight, Nat.shiftRight_eq_div_pow]

theorem shl32_toNat (v : Word) (n : Nat) : (shl32 v n).toNat = v.toNat * 2 ^ n % 2 ^ 32 := by
  rw [shl32, BitVec.toNat_shiftLeft, Nat.shiftLeft_eq]

theorem and3_toNat (s : Word) : (and3 s).toNat = s.toNat % 4 := BitVec.extractLsb'_toNat 0 2 s

theorem xor32_getLsbD (a b : Word) (i : Nat) : (xor32 a b).getLsbD i = (a.getLsbD i != b.getLsbD i) := BitVec.getLsbD_xor

/-- R87: XOR undoes itself. -/
@[simp] theorem xor32_xor32_self (a b : Word) : xor32 (xor32 a b) b = a := by
  rw [xor32, xor32, BitVec.xor_assoc, BitVec.xor_self, BitVec.xor_zero]

/-- Settles O40: the words are bit vectors, whose operations have the values asked for. -/
theorem arithmeticIsModulo : Obligations.ArithmeticIsModulo := fun a b n =>
  ⟨add32_toNat a b, neg32_toNat a, add32_neg32_self a, add32_add32_neg32 a b, rshift32_toNat a n, shl32_toNat a n,
    and3_toNat a, xor32_getLsbD a b, xor32_xor32_self a b⟩

end Sys2Proof.Machine
end

section
/-! The Word Codec (spec/40_arith_codec.md R80 to R82). -/
namespace Sys2Proof.Machine

/-! ### One word -/

/-- Concatenation of bytes on values: the high part counts 256-fold. -/
theorem toNat_append_byte {n : Nat} (x : BitVec n) (b : Byte) : (x ++ b).toNat = x.toNat * 2 ^ 8 + b.toNat := by
  rw [BitVec.toNat_append, ← Nat.shiftLeft_add_eq_or_of_lt b.isLt, Nat.shiftLeft_eq]

/-- R80: the value of four bytes. -/
theorem be32_toNat (b0 b1 b2 b3 : Byte) :
    (be32 b0 b1 b2 b3).toNat = b0.toNat * 2 ^ 24 + b1.toNat * 2 ^ 16 + b2.toNat * 2 ^ 8 + b3.toNat := by
  simp only [be32, toNat_append_byte]
  omega

/-- R81: the value of the byte `w[lo+7:lo]`. -/
theorem byteOf_toNat (w : Word) (lo : Nat) : (byteOf w lo).toNat = w.toNat / 2 ^ lo % 256 := by
  rw [byteOf, BitVec.extractLsb'_toNat, Nat.shiftRight_eq_div_pow]

/-- R81: the bytes of the word of four bytes are those bytes. -/
@[simp] theorem wordToBytes_be32 (b0 b1 b2 b3 : Byte) : wordToBytes (be32 b0 b1 b2 b3) = [b0, b1, b2, b3] := by
  have h0 := b0.isLt
  have h1 := b1.isLt
  have h2 := b2.isLt
  have h3 := b3.isLt
  simp only [wordToBytes, List.cons.injEq, ← BitVec.toNat_inj, byteOf_toNat, be32_toNat, and_true]
  omega

/-- R81: the word of the bytes of a word is that word. -/
@[simp] theorem be32_byteOf (w : Word) : be32 (byteOf w 24) (byteOf w 16) (byteOf w 8) (byteOf w 0) = w := by
  have hw := w.isLt
  simp only [← BitVec.toNat_inj, be32_toNat, byteOf_toNat]
  omega

/-- R81: the most significant byte. -/
theorem byteOf_24_toNat (w : Word) : (byteOf w 24).toNat = w.toNat / 2 ^ 24 := by
  have hw := w.isLt
  rw [byteOf_toNat]
  omega

/-- R81: the least significant byte. -/
theorem byteOf_0_toNat (w : Word) : (byteOf w 0).toNat = w.toNat % 256 := by
  rw [byteOf_toNat, Nat.pow_zero, Nat.div_one]

/-- Settles O41: the four bytes of a word `w` are `byteOf w` at 24, 16, 8 and 0. -/
theorem wordCodecIsBigEndian : Obligations.WordCodecIsBigEndian :=
  ⟨fun b0 b1 b2 b3 => ⟨be32_toNat b0 b1 b2 b3, wordToBytes_be32 b0 b1 b2 b3⟩,
    fun w => ⟨_, _, _, _, rfl, be32_byteOf w, byteOf_24_toNat w, byteOf_toNat w 16, byteOf_toNat w 8, byteOf_0_toNat w⟩⟩

/-! ### A sequence of bytes: by the recursion of `wordsOf`, which takes four bytes at a time -/

@[simp] theorem wordsToBytes_nil : wordsToBytes [] = [] := rfl

@[simp] theorem wordsToBytes_cons (w : Word) (ws : List Word) : wordsToBytes (w :: ws) = wordToBytes w ++ wordsToBytes ws := rfl

/-- A sequence that does not begin with four bytes has fewer than four. -/
theorem length_lt_four_of_ne_cons4 :
    ∀ {s : List Byte}, (∀ b0 b1 b2 b3 rest, s = b0 :: b1 :: b2 :: b3 :: rest → False) → s.length < 4
  | [], _ | [_], _ | [_, _], _ | [_, _, _], _ => by simp
  | b0 :: b1 :: b2 :: b3 :: rest, h => (h b0 b1 b2 b3 rest rfl).elim

theorem wordsOf_length (s : List Byte) : (wordsOf s).length = s.length / 4 := by
  fun_induction wordsOf s with
  | case1 b0 b1 b2 b3 rest ih =>
    simp only [List.length_cons, ih]
    omega
  | case2 s h =>
    have hlt := length_lt_four_of_ne_cons4 h
    rw [List.length_nil]
    omega

/-- R82: the bytes of the words of whole words are those bytes. -/
theorem wordsToBytes_wordsOf {s : List Byte} (hs : s.length % 4 = 0) : wordsToBytes (wordsOf s) = s := by
  fun_induction wordsOf s with
  | case1 b0 b1 b2 b3 rest ih =>
    have hrest : rest.length % 4 = 0 := by simp only [List.length_cons] at hs; omega
    rw [wordsToBytes_cons, wordToBytes_be32, ih hrest]
    rfl
  | case2 s h =>
    have hlt := length_lt_four_of_ne_cons4 h
    exact (List.length_eq_zero_iff.mp (by omega)).symm

/-- R82: word k is that of bytes 4k to 4k+3. -/
theorem wordsOf_getElem? {s : List Byte} {k : Nat} (hk : 4 * k + 3 < s.length) :
    (wordsOf s)[k]? = some (be32 s[4 * k] s[4 * k + 1] s[4 * k + 2] s[4 * k + 3]) := by
  fun_induction wordsOf s generalizing k with
  | case1 b0 b1 b2 b3 rest ih =>
    cases k with
    | zero => rfl
    | succ k => exact ih (by simp only [List.length_cons] at hk; omega)
  | case2 s h =>
    have hlt := length_lt_four_of_ne_cons4 h
    omega

theorem bytesToWords_eq_none_iff {s : List Byte} : bytesToWords s = none ↔ s.length % 4 ≠ 0 := by
  simp [bytesToWords]

theorem bytesToWords_eq_some_iff {s : List Byte} {ws : List Word} :
    bytesToWords s = some ws ↔ s.length % 4 = 0 ∧ wordsOf s = ws := by
  simp [bytesToWords]

/-- Settles O42: the words are `wordsOf s`, on a length that is a multiple of 4. -/
theorem bytesToWordsSplitsInOrder : Obligations.BytesToWordsSplitsInOrder := by
  refine fun s => ⟨bytesToWords_eq_none_iff, fun ws h => ?_⟩
  obtain ⟨hs, rfl⟩ := bytesToWords_eq_some_iff.mp h
  refine ⟨wordsOf_length s, wordsToBytes_wordsOf hs, fun k hk => ?_⟩
  have hlt : 4 * k + 3 < s.length := by omega
  exact ⟨_, _, _, _, List.getElem?_eq_getElem _, List.getElem?_eq_getElem _, List.getElem?_eq_getElem _,
    List.getElem?_eq_getElem hlt, wordsOf_getElem? hlt⟩

end Sys2Proof.Machine
end

section
/-! K in the steps of the engine: the commands KEYSALT, KEYSET and RESET apart, every operation leaves it as it is. -/
namespace Sys2Proof.Machine

variable {s t : State}

/-- R194, R132: ENCSTR writes OBUF, OLEN and STATUS, or raises. -/
theorem encstrOp_k (h : encstrOp s = .next t) : t.k = s.k := by
  rcases encstrOp_cases h with ⟨e, -, rfl⟩ | ⟨-, p, -, rfl⟩ <;> rfl

theorem decryptInput_k (h : decryptInput s = .next t) : t.k = s.k := by
  obtain ⟨c, -, rfl⟩ := decryptInput_cases h
  rfl

theorem stripOp_k (h : stripOp s = .next t) : t.k = s.k := by
  obtain ⟨n, -, rfl⟩ := stripOp_cases h
  rfl

/-- R104: a command that is no key command keeps the key, also when it ends in an error. -/
theorem exec_k {i : Instr} (h : exec i s = .next t) (hi : i ∉ [Instr.keysalt, .keyset, .reset]) : t.k = s.k := by
  cases i with
  | keysalt | keyset | reset => simp at hi
  | encblk | decblk | pad | selftest => cases h; rfl
  | strip => exact stripOp_k h
  | encstr => exact encstrOp_k h
  | decstr =>
    rcases execDecstr_cases h with ⟨e, -, rfl⟩ | ⟨-, hin⟩
    · rfl
    · exact decryptInput_k hin
  | encrypt => exact encstrOp_k (s := padOp s) h
  | decrypt =>
    rcases execDecrypt_cases h with ⟨e, -, rfl⟩ | ⟨-, u, hin, hstrip⟩
    · rfl
    · exact (stripOp_k hstrip).trans (decryptInput_k hin)

/-- R175: no register write reaches K. -/
theorem writeReg_k {v : Word} {g : Reg} (h : writeReg s v g = some t) : t.k = s.k := by
  rcases writeReg_cases h with rfl | ⟨-, rfl⟩ | ⟨kin, y, z, rfl⟩ <;> rfl

theorem observe_k (d : Dir) (r : Reply) : (observe d r).k = r.1.k := by cases d <;> rfl

/-- R63: the words of the key commands. -/
theorem encode_mem_keyWords {i : Instr} (hi : i ∈ [Instr.keysalt, .keyset, .reset]) :
    encode i ∈ [0x00000001#32, 0x00000002#32, 0x0000000C#32] := by
  cases i <;> revert hi <;> decide

/-- R104: a transaction keeps the key, or it is a write of the word of KEYSALT, KEYSET or RESET to CMD. -/
theorem transact_k {x : Txn} {r : Reply} (h : transact x s = .next r) :
    r.1.k = s.k ∨ (x.rw = .write ∧ x.addr = 0#32 ∧ x.wdata ∈ [0x00000001#32, 0x00000002#32, 0x0000000C#32]) := by
  rcases transact_cases h with rfl | ⟨-, d, v, rfl⟩ | ⟨-, g, s', hs', rfl⟩ | ⟨-, -, rfl⟩ | ⟨hrw, haddr, i, hi, he⟩
  · exact .inl rfl
  · exact .inl rfl
  · exact .inl (writeReg_k hs')
  · exact .inl rfl
  · by_cases hkey : i ∈ [Instr.keysalt, .keyset, .reset]
    · exact .inr ⟨hrw, haddr, encode_of_decode hi ▸ encode_mem_keyWords hkey⟩
    · exact .inl (exec_k he hkey)

/-- Settles O18: an idle step changes nothing, and a transaction that changes the key is a write of one of the three words. -/
theorem keyChangesOnlyByKeyCommandsAndReset : Obligations.KeyChangesOnlyByKeyCommandsAndReset := by
  intro s t ht hne
  rcases step_cases ht with ⟨-, rfl⟩ | ⟨rest, hp, -⟩ | ⟨x, a, b, rest, r, hp, hr, rfl⟩
  · exact absurd rfl hne
  · exact ⟨_, rest, hp, .inl rfl⟩
  · refine ⟨_, rest, hp, .inr ⟨x, a, b, rfl, ?_⟩⟩
    exact (transact_k hr).resolve_left fun hkeep => hne ((observe_k x.rw r).trans hkeep)

end Sys2Proof.Machine
end

section
/-! KEYSALT and KEYSET (spec/41_key.md R102, R103): a new key, `ERR` 0, and nothing else. -/
namespace Sys2Proof.Machine

/-- R102, R103: what the write of K and of `ERR` leaves unchanged. -/
theorem setKey_setErr_frame (s : State) (k : Key) {t : State} (ht : t = (s.setKey k).setErr .ok) :
    t.err = 0#2 ∧ SameSelftestBits s t ∧
      t.kin = s.kin ∧ t.y = s.y ∧ t.z = s.z ∧ t.ctrl = s.ctrl ∧ t.ilen = s.ilen ∧ t.olen = s.olen ∧
      SameBytes s.ibuf t.ibuf ∧ SameBytes s.obuf t.obuf ∧ SameOutside s t := by
  subst ht
  exact ⟨State.setErr_err _ .ok, setErr_sameSelftestBits s _ .ok rfl, rfl, rfl, rfl, rfl, rfl, rfl,
    fun _ => rfl, fun _ => rfl, rfl, rfl, rfl, rfl, rfl, rfl⟩

/-- Settles O21: KEYSALT finds the bytes it reads and writes the key of the salt. -/
theorem keysaltDerivesTheKey : Obligations.KeysaltDerivesTheKey := fun s salt hlen h =>
  ⟨_, execKeysalt_of_holds hlen h, rfl, setKey_setErr_frame s (deriveKey salt) rfl⟩

/-- Settles O22: KEYSET writes the key KIN holds. -/
theorem keysetCopiesTheStagingRegisters : Obligations.KeysetCopiesTheStagingRegisters := fun s =>
  ⟨_, rfl, rfl, rfl, rfl, rfl, setKey_setErr_frame s s.kin rfl⟩

end Sys2Proof.Machine
end

section
/-! The key schedule (spec/41_key.md R100, R101): key bytes, key words, and the key of a salt. -/
namespace Sys2Proof.Machine

/-! ### Key bytes -/

/-- R100: key byte i of a non-empty salt is `salt[i mod n]`. -/
theorem getElem?_mod_length {salt : List Byte} (h : salt ≠ []) (i : Nat) :
    salt[i % salt.length]? = some (keyByte salt i) := by
  have hlt : i % salt.length < salt.length := Nat.mod_lt i (List.length_pos_iff.mpr h)
  rw [keyByte, List.getD_eq_getElem _ _ hlt, List.getElem?_eq_getElem hlt]

/-- Below the length of the salt no byte is repeated. -/
theorem keyByte_of_lt {salt : List Byte} {i : Nat} (h : i < salt.length) : keyByte salt i = salt[i] := by
  rw [keyByte, Nat.mod_eq_of_lt h, List.getD_eq_getElem _ _ h]

/-- A salt of one byte value has that key byte everywhere. -/
theorem keyByte_replicate (n : Nat) (b : Byte) (i : Nat) : keyByte (List.replicate (n + 1) b) i = b := by
  have hne : List.replicate (n + 1) b ≠ [] := by simp
  exact List.eq_of_mem_replicate (List.mem_of_getElem? (getElem?_mod_length hne i))

/-! ### Key words -/

/-- Four bytes are repeated whole: every key word is the first. -/
theorem keyWord_of_length_four {salt : List Byte} (h : salt.length = 4) (j : Nat) : keyWord salt j = keyWord salt 0 := by
  simp only [keyWord, keyByte, h, Nat.mul_add_mod, Nat.mul_mod_right, Nat.mul_zero, Nat.zero_mod, Nat.zero_add]

/-- Within the salt the key words are those of the word codec. -/
theorem wordsOf_getElem?_eq_keyWord {salt : List Byte} {j : Nat} (h : 4 * j + 3 < salt.length) :
    (wordsOf salt)[j]? = some (keyWord salt j) := by
  rw [wordsOf_getElem? h, keyWord, keyByte_of_lt, keyByte_of_lt, keyByte_of_lt, keyByte_of_lt]

/-- R82: the words of the bytes of words are those words. -/
theorem wordsOf_wordsToBytes (ws : List Word) : wordsOf (wordsToBytes ws) = ws := by
  induction ws with
  | nil => rw [wordsToBytes_nil, wordsOf]; simp
  | cons w ws ih =>
    rw [wordsToBytes_cons, wordToBytes]
    simp only [List.cons_append, List.nil_append, wordsOf, be32_byteOf, ih]

theorem wordsToBytes_length (ws : List Word) : (wordsToBytes ws).length = 4 * ws.length := by
  induction ws with
  | nil => rfl
  | cons w ws ih =>
    rw [wordsToBytes_cons, List.length_append, wordToBytes_length, ih, List.length_cons]
    omega

/-- R101: the key words of serialized words are those words. -/
theorem keyWord_wordsToBytes {ws : List Word} {j : Nat} (hj : j < ws.length) : keyWord (wordsToBytes ws) j = ws[j] := by
  have hlt : 4 * j + 3 < (wordsToBytes ws).length := by
    rw [wordsToBytes_length]
    omega
  have hword := wordsOf_getElem?_eq_keyWord hlt
  rw [wordsOf_wordsToBytes, List.getElem?_eq_getElem hj] at hword
  exact (Option.some.inj hword).symm

/-! ### Keys -/

/-- R100: the key of a non-empty salt is its four key words. -/
theorem deriveKey_of_ne_nil {salt : List Byte} (h : salt ≠ []) :
    deriveKey salt = { k0 := keyWord salt 0, k1 := keyWord salt 1, k2 := keyWord salt 2, k3 := keyWord salt 3 } :=
  if_neg (by simpa using h)

theorem deriveKey_replicate (n : Nat) (b : Byte) : deriveKey (List.replicate (n + 1) b) =
    { k0 := be32 b b b b, k1 := be32 b b b b, k2 := be32 b b b b, k3 := be32 b b b b } := by
  rw [deriveKey_of_ne_nil (by simp)]
  simp only [keyWord, keyByte_replicate]

theorem deriveKey_of_length_four {salt : List Byte} (h : salt.length = 4) :
    deriveKey salt = { k0 := keyWord salt 0, k1 := keyWord salt 0, k2 := keyWord salt 0, k3 := keyWord salt 0 } := by
  rw [deriveKey_of_ne_nil (List.ne_nil_of_length_eq_add_one h), keyWord_of_length_four h 1, keyWord_of_length_four h 2,
    keyWord_of_length_four h 3]

/-- R101, R80: the salt that serializes four words gives the key of those words. -/
theorem deriveKey_wordsToBytes (w0 w1 w2 w3 : Word) :
    deriveKey (wordsToBytes [w0, w1, w2, w3]) = { k0 := w0, k1 := w1, k2 := w2, k3 := w3 } := by
  have hlen : (wordsToBytes [w0, w1, w2, w3]).length = 15 + 1 := wordsToBytes_length _
  rw [deriveKey_of_ne_nil (List.ne_nil_of_length_eq_add_one hlen), keyWord_wordsToBytes (by decide : 0 < 4),
    keyWord_wordsToBytes (by decide : 1 < 4), keyWord_wordsToBytes (by decide : 2 < 4),
    keyWord_wordsToBytes (by decide : 3 < 4)]
  rfl

/-- Settles O43: the sixteen bytes are the key bytes of the salt. -/
theorem deriveKeyRepeatsOrCutsTheSalt : Obligations.DeriveKeyRepeatsOrCutsTheSalt :=
  ⟨rfl, fun salt h => ⟨keyByte salt, fun i _ => getElem?_mod_length h i, deriveKey_of_ne_nil h⟩⟩

/-- Settles O44: one byte and sixteen zero bytes repeat one byte value, four bytes repeat one word, and sixteen bytes are
the words they serialize. -/
theorem deriveKeyByLengthOfSalt : Obligations.DeriveKeyByLengthOfSalt := by
  refine ⟨fun salt => (deriveKey_take salt).symm, deriveKey_replicate 0,
    fun b0 b1 b2 b3 => deriveKey_of_length_four rfl, fun w0 w1 w2 w3 => ?_, ?_⟩
  · have hbytes : wordToBytes w0 ++ wordToBytes w1 ++ wordToBytes w2 ++ wordToBytes w3 = wordsToBytes [w0, w1, w2, w3] := by
      simp
    rw [hbytes, deriveKey_wordsToBytes]
  · have hzero : be32 0 0 0 0 = 0 := by decide
    rw [deriveKey_replicate 15 0, hzero]
    rfl

end Sys2Proof.Machine
end

section
/-! The block cipher round by round (spec/42_block.md R110 to R115, R119): what one round computes, the state after `n` of
them, and the sum each round uses. -/
namespace Sys2Proof.Machine

/-! ### One round -/

/-- R112: the key word of an index, from the four words in their order. -/
theorem keyAt_eq_getD (k : Key) (i : BitVec 2) : keyAt k i = [k.k0, k.k1, k.k2, k.k3].getD i.toNat 0 := by
  have hcases : i = 0#2 ∨ i = 1#2 ∨ i = 2#2 ∨ i = 3#2 := by revert i; decide
  obtain rfl | rfl | rfl | rfl := hcases <;> rfl

/-- R112: the key word of the Y-update. -/
theorem keyAt_yIndex (k : Key) (sum : Word) :
    keyAt k (yIndex sum) = [k.k0, k.k1, k.k2, k.k3].getD (sum.toNat % 4) 0 := by
  rw [keyAt_eq_getD, yIndex, and3_toNat]

/-- R112: the key word of the Z-update. -/
theorem keyAt_zIndex (k : Key) (sum : Word) :
    keyAt k (zIndex sum) = [k.k0, k.k1, k.k2, k.k3].getD (sum.toNat / 2 ^ 11 % 4) 0 := by
  rw [keyAt_eq_getD, zIndex, and3_toNat, rshift32_toNat]

/-- R111: F in the operators of words. -/
theorem mixF_eq (v s k : Word) : mixF v s k = (((v <<< 4) ^^^ (v >>> 5)) + v) ^^^ (s + k) := rfl

/-- R113: the Y-update uses the old `sum`. -/
theorem encRound_y (k : Key) (r : RoundState) :
    (encRound k r).y = r.y + mixF r.z r.sum (keyAt k (yIndex r.sum)) := rfl

/-- R113: the Z-update uses the new `y` and the new `sum`. -/
theorem encRound_z (k : Key) (r : RoundState) :
    (encRound k r).z = r.z + mixF (encRound k r).y (encRound k r).sum (keyAt k (zIndex (encRound k r).sum)) := rfl

/-- R115: adding NEG_DELTA subtracts DELTA. -/
theorem decRound_sum_eq_sub (k : Key) (r : RoundState) : (decRound k r).sum = r.sum - delta :=
  (BitVec.sub_eq_add_neg _ _).symm

/-- R115: the Z-update is undone with the old `sum`. -/
theorem decRound_z (k : Key) (r : RoundState) :
    (decRound k r).z = r.z - mixF r.y r.sum (keyAt k (zIndex r.sum)) := (BitVec.sub_eq_add_neg _ _).symm

/-- R115: the Y-update is undone with the restored `z` and the lowered `sum`. -/
theorem decRound_y (k : Key) (r : RoundState) :
    (decRound k r).y = r.y - mixF (decRound k r).z (decRound k r).sum (keyAt k (yIndex (decRound k r).sum)) :=
  (BitVec.sub_eq_add_neg _ _).symm

/-- R84: adding an operand undoes adding its negation. -/
@[simp] theorem add32_neg32_add32 (a b : Word) : add32 (add32 a (neg32 b)) b = a := neg_add_cancel_right a b

/-- R117: an inverse round takes back the round before it, because it reads what that round wrote. -/
theorem decRound_encRound (k : Key) (r : RoundState) : decRound k (encRound k r) = r := by
  simp only [decRound, encRound, negDelta, add32_add32_neg32]

/-- R117: a round takes back the inverse round before it. -/
theorem encRound_decRound (k : Key) (r : RoundState) : encRound k (decRound k r) = r := by
  simp only [decRound, encRound, negDelta, add32_neg32_add32]

/-! ### The state after `n` rounds -/

/-- R113: the round state of an encryption after `n` rounds. -/
def encState (k : Key) (b : Block) (n : Nat) : RoundState := rounds (encRound k) n { sum := 0, y := b.y, z := b.z }

/-- R115: the round state of a decryption after `n` rounds. -/
def decState (k : Key) (b : Block) (n : Nat) : RoundState := rounds (decRound k) n { sum := sumEnd, y := b.y, z := b.z }

theorem encState_succ (k : Key) (b : Block) (n : Nat) : encState k b (n + 1) = encRound k (encState k b n) :=
  rounds_succ_last _ _ _

theorem decState_succ (k : Key) (b : Block) (n : Nat) : decState k b (n + 1) = decRound k (decState k b n) :=
  rounds_succ_last _ _ _

theorem encryptBlock_eq (k : Key) (b : Block) : encryptBlock k b = (encState k b 32).block := rfl

theorem decryptBlock_eq (k : Key) (b : Block) : decryptBlock k b = (decState k b 32).block := rfl

/-- R110, R119: SUM_END is 32 times DELTA. -/
theorem roundSum_thirtyTwo : roundSum 32 = sumEnd := by decide

/-- R119: the sum after `n` rounds of encryption, whatever the key and the block. -/
theorem encState_sum (k : Key) (b : Block) (n : Nat) : (encState k b n).sum = roundSum n := by
  induction n with
  | zero => rfl
  | succ n ih => rw [encState_succ, encRound_sum, ih, roundSum_succ]

/-- R119: decryption runs through the sums of encryption backwards. -/
theorem decState_sum (k : Key) (b : Block) {n : Nat} (hn : n ≤ 32) : (decState k b n).sum = roundSum (32 - n) := by
  induction n with
  | zero => exact roundSum_thirtyTwo.symm
  | succ n ih =>
    have hsub : 32 - n = (32 - (n + 1)) + 1 := by omega
    rw [decState_succ, decRound_sum, ih (by omega), hsub, roundSum_succ_add_negDelta]

/-- R119: round n + 1 of encryption has n times DELTA in its Y-update. -/
theorem encState_succ_y (k : Key) (b : Block) (n : Nat) : (encState k b (n + 1)).y =
    (encState k b n).y + mixF (encState k b n).z (roundSum n) (keyAt k (yIndex (roundSum n))) := by
  rw [encState_succ, encRound_y, encState_sum]

/-- R119: round n + 1 of encryption has (n + 1) times DELTA in its Z-update. -/
theorem encState_succ_z (k : Key) (b : Block) (n : Nat) : (encState k b (n + 1)).z =
    (encState k b n).z + mixF (encState k b (n + 1)).y (roundSum (n + 1)) (keyAt k (zIndex (roundSum (n + 1)))) := by
  rw [← encState_sum k b (n + 1), encState_succ, encRound_z]

/-- R119: `decState_sum` after round n + 1. -/
theorem decState_succ_sum (k : Key) (b : Block) {n : Nat} (hn : n < 32) : (decState k b (n + 1)).sum = roundSum (31 - n) :=
  (decState_sum k b hn).trans (congrArg roundSum (Nat.succ_sub_succ 31 n))

/-- R119: round n + 1 of decryption has (32 - n) times DELTA in its Z-step. -/
theorem decState_succ_z (k : Key) (b : Block) {n : Nat} (hn : n < 32) : (decState k b (n + 1)).z =
    (decState k b n).z - mixF (decState k b n).y (roundSum (32 - n)) (keyAt k (zIndex (roundSum (32 - n)))) := by
  rw [decState_succ, decRound_z, decState_sum k b hn.le]

/-- R119: round n + 1 of decryption has (31 - n) times DELTA in its Y-step. -/
theorem decState_succ_y (k : Key) (b : Block) {n : Nat} (hn : n < 32) : (decState k b (n + 1)).y =
    (decState k b n).y - mixF (decState k b (n + 1)).z (roundSum (31 - n)) (keyAt k (yIndex (roundSum (31 - n)))) := by
  rw [← decState_succ_sum k b hn, decState_succ, decRound_y]

/-! ### What the rounds compute -/

/-- Settles O45: the witnesses are the fields of the state after `n` rounds. -/
theorem encryptBlockRunsThirtyTwoRounds : Obligations.EncryptBlockRunsThirtyTwoRounds := by
  intro k b
  refine ⟨fun n => (encState k b n).sum, fun n => (encState k b n).y, fun n => (encState k b n).z, rfl, rfl, rfl,
    fun n _ => ?_, encryptBlock_eq k b, (encState_sum k b 32).trans roundSum_thirtyTwo⟩
  simp only [encState_succ, ← keyAt_yIndex, ← keyAt_zIndex, ← mixF_eq]
  exact ⟨encRound_y k _, encRound_sum k _, encRound_z k _⟩

/-- Settles O46: the witnesses are the fields of the state after `n` inverse rounds. -/
theorem decryptBlockRunsThirtyTwoInverseRounds : Obligations.DecryptBlockRunsThirtyTwoInverseRounds := by
  intro k b
  refine ⟨fun n => (decState k b n).sum, fun n => (decState k b n).y, fun n => (decState k b n).z, rfl, rfl, rfl,
    fun n _ => ?_, decryptBlock_eq k b, decState_sum k b le_rfl⟩
  simp only [decState_succ, ← keyAt_yIndex, ← keyAt_zIndex, ← mixF_eq]
  exact ⟨decRound_z k _, decRound_sum_eq_sub k _, decRound_y k _⟩

/-- Settles O47: each update uses the sum its round has; the table is computed. -/
theorem sumAndKeyIndexSchedule : Obligations.SumAndKeyIndexSchedule :=
  ⟨fun k y z r _ => ⟨encState k ⟨y, z⟩ r, encState k ⟨y, z⟩ (r + 1), rfl, rfl, encState_sum k _ r,
      encState_sum k _ (r + 1), encState_succ_y k _ r, encState_succ_z k _ r⟩,
    fun k y z r hr => ⟨decState k ⟨y, z⟩ r, decState k ⟨y, z⟩ (r + 1), rfl, rfl, decState_sum k _ hr.le,
      decState_succ_sum k _ hr, decState_succ_z k _ hr, decState_succ_y k _ hr⟩,
    by decide⟩

/-! ### Encryption and decryption undo each other -/

/-- R110: `sum` ends at SUM_END, where decryption starts. -/
theorem encState_thirtyTwo (k : Key) (b : Block) :
    encState k b 32 = { sum := sumEnd, y := (encryptBlock k b).y, z := (encryptBlock k b).z } := by
  rw [← roundSum_thirtyTwo, ← encState_sum k b 32]
  rfl

/-- R115: `sum` ends at 0, where encryption starts. -/
theorem decState_thirtyTwo (k : Key) (b : Block) :
    decState k b 32 = { sum := 0, y := (decryptBlock k b).y, z := (decryptBlock k b).z } := by
  rw [show (0 : Word) = (decState k b 32).sum from (decState_sum k b le_rfl).symm]
  rfl

/-- R117: the inverse rounds take the rounds back, the last first. -/
theorem decryptBlock_encryptBlock (k : Key) (b : Block) : decryptBlock k (encryptBlock k b) = b := by
  rw [decryptBlock_eq, decState, ← encState_thirtyTwo, encState, rounds_leftInverse (decRound_encRound k)]
  rfl

/-- R117: the rounds take the inverse rounds back, the last first. -/
theorem encryptBlock_decryptBlock (k : Key) (b : Block) : encryptBlock k (decryptBlock k b) = b := by
  rw [encryptBlock_eq, encState, ← decState_thirtyTwo, decState, rounds_leftInverse (encRound_decRound k)]
  rfl

/-- Settles O49: each direction takes the other's rounds back. -/
theorem decryptBlockInvertsEncryptBlock : Obligations.DecryptBlockInvertsEncryptBlock := fun k b =>
  ⟨decryptBlock_encryptBlock k b, encryptBlock_decryptBlock k b⟩

/-! ### The published vectors -/

/-- Settles O48: 32 rounds on each vector, computed. -/
theorem publishedVectorsHold : Obligations.PublishedVectorsHold := by
  unfold Obligations.PublishedVectorsHold
  decide

end Sys2Proof.Machine
end

section
/-! ENCBLK and DECBLK (spec/42_block.md R114, R116): a new block in (Y, Z), `ERR` 0, and nothing else. -/
namespace Sys2Proof.Machine

/-- R114, R116: the block the registers hold afterwards, and what the command leaves unchanged. -/
theorem setBlock_setErr_frame (s : State) (b : Block) {t : State} (ht : t = (s.setBlock b).setErr .ok) :
    ({ y := t.y, z := t.z } : Block) = b ∧ t.err = 0#2 ∧ SameSelftestBits s t ∧
      t.k = s.k ∧ t.kin = s.kin ∧ t.ctrl = s.ctrl ∧ t.ilen = s.ilen ∧ t.olen = s.olen ∧
      SameBytes s.ibuf t.ibuf ∧ SameBytes s.obuf t.obuf ∧ SameOutside s t := by
  subst ht
  exact ⟨rfl, State.setErr_err _ .ok, setErr_sameSelftestBits s _ .ok rfl, rfl, rfl, rfl, rfl, rfl,
    fun _ => rfl, fun _ => rfl, rfl, rfl, rfl, rfl, rfl, rfl⟩

/-- Settles O23: ENCBLK writes the encrypted block. -/
theorem encblkEncryptsTheBlockRegisters : Obligations.EncblkEncryptsTheBlockRegisters := fun s =>
  ⟨_, rfl, setBlock_setErr_frame s (encryptBlock s.k (blockOperand s)) rfl⟩

/-- Settles O24: DECBLK writes the decrypted block. -/
theorem decblkDecryptsTheBlockRegisters : Obligations.DecblkDecryptsTheBlockRegisters := fun s =>
  ⟨_, rfl, setBlock_setErr_frame s (decryptBlock s.k (blockOperand s)) rfl⟩

end Sys2Proof.Machine
end

section
/-! The block layout (spec/20_memory.md R44, R45): blocks to bytes and back, and the blocks of a buffer that holds them. -/
namespace Sys2Proof.Machine

/-! ### Bytes and blocks undo each other -/

/-- R44, R81: the bytes of the block of eight bytes are those bytes. -/
theorem blockToBytes_be32 (b0 b1 b2 b3 b4 b5 b6 b7 : Byte) :
    blockToBytes { y := be32 b0 b1 b2 b3, z := be32 b4 b5 b6 b7 } = [b0, b1, b2, b3, b4, b5, b6, b7] := by
  simp [blockToBytes]

theorem blocksToBytes_append (bs cs : List Block) :
    blocksToBytes (bs ++ cs) = blocksToBytes bs ++ blocksToBytes cs := List.flatMap_append

/-- R45: the bytes of the blocks of whole blocks are those bytes. -/
theorem blocksToBytes_blocksOf (n : Nat) : ∀ s : List Byte, s.length = 8 * n → blocksToBytes (blocksOf s) = s := by
  induction n with
  | zero => intro s h; rw [List.length_eq_zero_iff.mp h, blocksOf_nil, blocksToBytes_nil]
  | succ n ih =>
    intro s h
    rcases bytes_cases8 s (by omega) with rfl | ⟨b0, b1, b2, b3, b4, b5, b6, b7, r, rfl, -⟩
    · simp at h
    · have hr : r.length = 8 * n := by simp only [List.length_cons] at h; omega
      rw [blocksOf_cons8, blocksToBytes_cons, blockToBytes_be32, ih r hr]
      rfl

/-- R44: the blocks of the bytes of blocks are those blocks. -/
@[simp] theorem blocksOf_blocksToBytes (bs : List Block) : blocksOf (blocksToBytes bs) = bs := by
  induction bs with
  | nil => rw [blocksToBytes_nil, blocksOf_nil]
  | cons b bs ih =>
    rw [blocksToBytes_cons, blockToBytes, wordToBytes, wordToBytes]
    simp only [List.cons_append, List.nil_append, blocksOf_cons8, be32_byteOf, ih]

/-! ### The blocks of a buffer -/

/-- R44: the blocks of a buffer, from offset 0 on, are `bs`. -/
def HoldsBlocks (m : Memory) (bs : List Block) : Prop := ∀ (j : Nat) (b : Block), bs[j]? = some b → m.blockAt j = some b

theorem Holds.append_left {m : Memory} {a : Nat} {bs cs : List Byte} (h : Holds m a (bs ++ cs)) : Holds m a bs := by
  intro i hi
  rw [h i (by rw [List.length_append]; omega), List.getElem?_append_left hi]

theorem Holds.append_right {m : Memory} {a : Nat} {bs cs : List Byte} (h : Holds m a (bs ++ cs)) :
    Holds m (a + bs.length) cs := by
  intro i hi
  rw [Nat.add_assoc, h (bs.length + i) (by rw [List.length_append]; omega), List.getElem?_append_right (by omega),
    Nat.add_sub_cancel_left]

/-- R44: the eight bytes of a block at offset 8j are block j. -/
theorem Holds.blockAt {m : Memory} {j : Nat} {b : Block} (h : Holds m (8 * j) (blockToBytes b)) : m.blockAt j = some b := by
  have hread : ∀ i (hi : i < 8), m.read (8 * j + i) = some (blockToBytes b)[i] := fun i hi =>
    (h i hi).trans (List.getElem?_eq_getElem hi)
  have hread0 := hread 0 (by decide)
  rw [Nat.add_zero] at hread0
  rw [Memory.blockAt, hread0, hread 1 (by decide), hread 2 (by decide), hread 3 (by decide), hread 4 (by decide),
    hread 5 (by decide), hread 6 (by decide), hread 7 (by decide)]
  simp [blockToBytes, wordToBytes]

/-- R45: a buffer that holds the bytes of blocks holds those blocks: block j stands after the j blocks before it. -/
theorem Holds.holdsBlocks {m : Memory} {bs : List Block} (h : Holds m 0 (blocksToBytes bs)) : HoldsBlocks m bs := by
  intro j b hb
  obtain ⟨hj, rfl⟩ := List.getElem?_eq_some_iff.mp hb
  have hsplit : bs = bs.take j ++ bs[j] :: bs.drop (j + 1) := by simp
  have hbytes : blocksToBytes bs =
      blocksToBytes (bs.take j) ++ (blockToBytes bs[j] ++ blocksToBytes (bs.drop (j + 1))) := by
    rw [← blocksToBytes_cons, ← blocksToBytes_append, ← hsplit]
  rw [hbytes] at h
  have hat := h.append_right.append_left
  rw [blocksToBytes_length, List.length_take_of_le hj.le, Nat.zero_add] at hat
  exact hat.blockAt

end Sys2Proof.Machine
end

section
/-! The chaining mode (spec/43_stream.md R130, R133, R136, R137): pure functions of the key, the blocks and the IV. -/
namespace Sys2Proof.Machine

/-! ### XOR of blocks -/

@[simp] theorem xorBlock_xorBlock_self (a b : Block) : xorBlock (xorBlock a b) b = a := by simp [xorBlock]

theorem xorBlock_assoc (a b c : Block) : xorBlock (xorBlock a b) c = xorBlock a (xorBlock b c) := by
  simp [xorBlock, xor32, BitVec.xor_assoc]

/-! ### What each block of a stream is -/

/-- R130: the chained stream after its first block is the chained stream with that next block as IV. -/
theorem encryptBlocks_chained_cons (k : Key) (iv p : Block) (ps : List Block) :
    encryptBlocks k true iv (p :: ps) = iv :: encryptBlocks k true (encryptBlock k (xorBlock p iv)) ps := rfl

/-- R130, chained: stream block j+1 is the encryption of plaintext block j XORed with stream block j. -/
theorem encryptBlocks_chained_getElem? (k : Key) {ps : List Block} : ∀ {iv : Block} {j : Nat} {p : Block}, ps[j]? = some p →
    ∃ c, (encryptBlocks k true iv ps)[j]? = some c ∧
      (encryptBlocks k true iv ps)[j + 1]? = some (encryptBlock k (xorBlock p c)) := by
  induction ps with
  | nil => intro iv j p hp; cases hp
  | cons q ps ih =>
    intro iv j p hp
    rw [encryptBlocks_chained_cons]
    cases j with
    | zero => cases hp; exact ⟨iv, rfl, rfl⟩
    | succ j => exact ih hp

theorem chainDecrypt_eq_zipWith (k : Key) (cs : List Block) :
    ∀ v, chainDecrypt k v cs = List.zipWith (fun c v => xorBlock (decryptBlock k c) v) cs (v :: cs) := by
  induction cs with
  | nil => intro v; rfl
  | cons c cs ih => intro v; rw [chainDecrypt, ih, List.zipWith_cons_cons]

/-- R133, chained: each block but the first is decrypted and XORed with the raw block before it. -/
theorem decryptBlocks_chained (k : Key) (cs : List Block) :
    decryptBlocks k true cs = List.zipWith (fun c v => xorBlock (decryptBlock k c) v) cs.tail cs := by
  cases cs with
  | nil => rfl
  | cons v cs => exact chainDecrypt_eq_zipWith k cs v

/-- R133, chained: plaintext block j is that of stream blocks j and j+1. -/
theorem decryptBlocks_chained_getElem? (k : Key) {cs : List Block} {j : Nat} {v c : Block} (hv : cs[j]? = some v)
    (hc : cs[j + 1]? = some c) : (decryptBlocks k true cs)[j]? = some (xorBlock (decryptBlock k c) v) := by
  rw [decryptBlocks_chained, List.getElem?_zipWith, List.getElem?_tail, hv, hc]

/-! ### Decryption undoes encryption -/

/-- R136, chained: each block is XORed twice with the raw block before it. -/
theorem chainDecrypt_chainEncrypt (k : Key) (ps : List Block) : ∀ c, chainDecrypt k c (chainEncrypt k c ps) = ps := by
  induction ps with
  | nil => intro c; rfl
  | cons p ps ih => intro c; rw [chainEncrypt, chainDecrypt, decryptBlock_encryptBlock, xorBlock_xorBlock_self, ih]

/-- R136 on blocks, in both modes. -/
theorem decryptBlocks_encryptBlocks (k : Key) (cbc : Bool) (iv : Block) (ps : List Block) :
    decryptBlocks k cbc (encryptBlocks k cbc iv ps) = ps := by
  cases cbc with
  | true => exact chainDecrypt_chainEncrypt k ps iv
  | false => simp [encryptBlocks, decryptBlocks, Function.comp_def, decryptBlock_encryptBlock]

/-- R136 on bytes, in both modes. -/
theorem decryptStream_encryptStream (k : Key) {p : List Byte} (cbc : Bool) (iv : Block) (h : p.length % 8 = 0) :
    decryptStream k (encryptStream k p cbc iv) cbc = p := by
  rw [decryptStream, encryptStream, blocksOf_blocksToBytes, decryptBlocks_encryptBlocks,
    blocksToBytes_blocksOf (p.length / 8) p (by omega)]

/-- Settles O50: the inverse holds for every number of blocks, in both modes. -/
theorem decryptStreamInvertsEncryptStream : Obligations.DecryptStreamInvertsEncryptStream := fun k _ iv h =>
  ⟨fun _ => decryptStream_encryptStream k true iv h, decryptStream_encryptStream k false iv h⟩

/-! ### Changed streams -/

/-- R137 (c): a mask on the IV block is a mask on the first plaintext block, which is XORed with the IV block. -/
theorem decryptBlocks_chained_xorBlock_iv (k : Key) (iv c m : Block) (cs : List Block) :
    decryptBlocks k true (xorBlock iv m :: c :: cs) =
      xorBlock (xorBlock (decryptBlock k c) iv) m :: chainDecrypt k c cs := by
  rw [xorBlock_assoc]
  rfl

/-- R133: plaintext block i depends on stream blocks i and i+1 only. -/
theorem decryptBlocks_chained_getElem?_congr (k : Key) {cs ds : List Block} {i : Nat} (h : cs[i]? = ds[i]?)
    (hnext : cs[i + 1]? = ds[i + 1]?) : (decryptBlocks k true cs)[i]? = (decryptBlocks k true ds)[i]? := by
  rw [decryptBlocks_chained, decryptBlocks_chained, List.getElem?_zipWith, List.getElem?_zipWith, List.getElem?_tail,
    List.getElem?_tail, h, hnext]

/-- Settles O51: the IV block is XORed into the first plaintext block only, and a plaintext block made of two unchanged
stream blocks is unchanged. -/
theorem tamperingSpoilsOnlyNearbyBlocks : Obligations.TamperingSpoilsOnlyNearbyBlocks :=
  ⟨fun k iv c m cs => ⟨_, _, rfl, decryptBlocks_chained_xorBlock_iv k iv c m cs⟩,
    fun k _ _ _ _ hsame i hi hnext => decryptBlocks_chained_getElem?_congr k (hsame i hi) (hsame (i + 1) hnext)⟩

end Sys2Proof.Machine
end

section
/-! ENCSTR and DECSTR (spec/43_stream.md R132, R134) on written whole blocks: blocks of IBUF in, blocks of OBUF out. -/
namespace Sys2Proof.Machine

variable {s t : State}

/-! ### Past the checks -/

/-- R132: on whole blocks ENCSTR stores the stream of its input. -/
theorem encstrOp_of_input (hmod : s.ilen.toNat % 8 = 0) {p : List Byte} (hp : inputOperand s = some p) :
    encstrOp s = .next ((s.setOutput (encryptStream s.k p s.cbc (ivOperand s))).setErr .ok) := by
  have hcheck : encryptCheck s = none := if_neg (not_not.mpr hmod)
  rw [encstrOp, hcheck]
  simp only [encryptInput, hp]

/-- R134: whole blocks, at least two of them in chained mode, pass the three checks. -/
theorem decryptCheck_eq_none (hmod : s.ilen.toNat % 8 = 0) (hcbc : s.cbc = true → 16 ≤ s.ilen.toNat) :
    decryptCheck s = none := by
  rcases decryptCheck_cases s with ⟨-, h⟩ | ⟨-, -, h⟩ | ⟨-, -, hc, h⟩ | ⟨h, -, -⟩
  · omega
  · omega
  · have := hcbc hc
    omega
  · exact h

/-- R134: past its checks DECSTR stores the plaintext of its input. -/
theorem execDecstr_of_input (hcheck : decryptCheck s = none) {c : List Byte} (hc : inputOperand s = some c) :
    execDecstr s = .next ((s.setOutput (decryptStream s.k c s.cbc)).setErr .ok) := by
  rw [execDecstr, hcheck]
  simp only [decryptInput, hc]

/-! ### Blocks in, blocks out -/

/-- R24, R44: whole blocks of written input are ILEN / 8 blocks of IBUF. -/
theorem inputOperand_blocks (hmod : s.ilen.toNat % 8 = 0) (hin : InputWritten s s.ilen.toNat) :
    ∃ p, inputOperand s = some p ∧ 8 * (blocksOf p).length = s.ilen.toNat ∧ HoldsBlocks s.ibuf (blocksOf p) := by
  obtain ⟨p, hp, hlen, hholds⟩ := Memory.readBytes_of_written s.ibuf 0 s.ilen.toNat fun i hi => by
    rw [Nat.zero_add]; exact hin i hi
  have hlen8 : p.length = 8 * (s.ilen.toNat / 8) := by omega
  rw [← blocksToBytes_blocksOf _ p hlen8] at hholds
  exact ⟨p, hp, by rw [blocksOf_length _ p hlen8]; omega, hholds.holdsBlocks⟩

/-- R132, R134: OBUF from offset `n` on and everything but OBUF, OLEN and `ERR` is unchanged. -/
def OnlyOutputChanges (s t : State) (n : Nat) : Prop :=
  SameBytesOutside s.obuf t.obuf 0 n ∧ SameSelftestBits s t ∧
    t.k = s.k ∧ t.kin = s.kin ∧ t.y = s.y ∧ t.z = s.z ∧ t.ctrl = s.ctrl ∧ t.ilen = s.ilen ∧
    SameBytes s.ibuf t.ibuf ∧ SameOutside s t

/-- R132, R134: blocks stored as the output stand in OBUF, OLEN is their length in bytes, `ERR` is 0, and nothing else
changes, OBUF only below the new OLEN. -/
theorem setOutput_blocks_spec (s : State) {bs : List Block} {n : Nat} (hn : 8 * bs.length = n) (hfit : n ≤ s.cfg.maxlen + 8)
    (ht : t = (s.setOutput (blocksToBytes bs)).setErr .ok) :
    t.olen.toNat = n ∧ t.err = 0#2 ∧ HoldsBlocks t.obuf bs ∧ OnlyOutputChanges s t n := by
  subst ht
  have hlen : (blocksToBytes bs).length = n := (blocksToBytes_length bs).trans hn
  have holen : (BitVec.ofNat 32 n).toNat = n := by
    obtain ⟨-, -, hmax⟩ := maxlen_bounds s.cfg
    rw [BitVec.toNat_ofNat, Nat.mod_eq_of_lt (by omega)]
  have hout := Memory.read_writeBytes_outside s.obuf 0 (blocksToBytes bs)
  rw [hlen] at hout
  refine ⟨?_, State.setErr_err _ .ok, (Memory.holds_writeBytes s.obuf 0 (blocksToBytes bs)).holdsBlocks, hout,
    setErr_sameSelftestBits s _ .ok rfl, rfl, rfl, rfl, rfl, rfl, rfl, fun _ => rfl, rfl, rfl, rfl, rfl, rfl, rfl⟩
  rw [State.setErr_olen, State.setOutput_olen, hlen, holen]

/-- R130, R133, direct mode: output block j is `f` of input block j, and OLEN is ILEN. -/
theorem setOutput_map_spec (f : Block → Block) {bs : List Block} (hlen : 8 * bs.length = s.ilen.toNat)
    (hmax : s.ilen.toNat ≤ s.cfg.maxlen) (hibuf : HoldsBlocks s.ibuf bs)
    (ht : t = (s.setOutput (blocksToBytes (bs.map f))).setErr .ok) :
    t.olen = s.ilen ∧ t.err = 0#2 ∧
      (∀ j < s.ilen.toNat / 8, ∃ b, s.ibuf.blockAt j = some b ∧ t.obuf.blockAt j = some (f b)) ∧
      OnlyOutputChanges s t s.ilen.toNat := by
  have hn : 8 * (bs.map f).length = s.ilen.toNat := by rw [List.length_map, hlen]
  obtain ⟨holen, herr, hobuf, hframe⟩ := setOutput_blocks_spec s hn (by omega) ht
  refine ⟨BitVec.eq_of_toNat_eq holen, herr, fun j hj => ?_, hframe⟩
  have hb := List.getElem?_eq_getElem (show j < bs.length by omega)
  exact ⟨_, hibuf j _ hb, hobuf j _ (by rw [List.getElem?_map, hb, Option.map_some])⟩

/-- R132: ENCSTR on whole blocks of written input. -/
theorem exec_encstr_blocks (hmod : s.ilen.toNat % 8 = 0) (hin : InputWritten s s.ilen.toNat) :
    ∃ ps, 8 * ps.length = s.ilen.toNat ∧ HoldsBlocks s.ibuf ps ∧ exec .encstr s =
      .next ((s.setOutput (blocksToBytes (encryptBlocks s.k s.cbc (ivOperand s) ps))).setErr .ok) := by
  obtain ⟨p, hp, hlen, hibuf⟩ := inputOperand_blocks hmod hin
  exact ⟨blocksOf p, hlen, hibuf, encstrOp_of_input hmod hp⟩

/-- R134: DECSTR on whole blocks of written input, at least two of them in chained mode. -/
theorem exec_decstr_blocks (hmod : s.ilen.toNat % 8 = 0) (hcbc : s.cbc = true → 16 ≤ s.ilen.toNat)
    (hin : InputWritten s s.ilen.toNat) :
    ∃ cs, 8 * cs.length = s.ilen.toNat ∧ HoldsBlocks s.ibuf cs ∧ exec .decstr s =
      .next ((s.setOutput (blocksToBytes (decryptBlocks s.k s.cbc cs))).setErr .ok) := by
  obtain ⟨c, hc, hlen, hibuf⟩ := inputOperand_blocks hmod hin
  exact ⟨blocksOf c, hlen, hibuf, execDecstr_of_input (decryptCheck_eq_none hmod hcbc) hc⟩

/-! ### The statements -/

/-- Settles O27: the stream begins with the IV block, and each block after it is chained to the one before. -/
theorem encstrChainsTheBlocks : Obligations.EncstrChainsTheBlocks := by
  intro s hmax hmod hin hcbc
  obtain ⟨ps, hlen, hibuf, hexec⟩ := exec_encstr_blocks hmod hin
  rw [hcbc] at hexec
  have hn : 8 * (encryptBlocks s.k true (ivOperand s) ps).length = s.ilen.toNat + 8 := by
    rw [encryptBlocks_length, if_pos rfl]; omega
  obtain ⟨holen, herr, hobuf, hframe⟩ := setOutput_blocks_spec s hn (by omega) rfl
  refine ⟨_, hexec, holen, herr, hobuf 0 _ rfl, fun j hj => ?_, hframe⟩
  have hp := List.getElem?_eq_getElem (show j < ps.length by omega)
  obtain ⟨c, hc, hnext⟩ := encryptBlocks_chained_getElem? s.k (iv := ivOperand s) hp
  exact ⟨_, c, hibuf j _ hp, hobuf j c hc, hobuf (j + 1) _ hnext⟩

/-- Settles O28: the stream is the encrypted blocks in their order. -/
theorem encstrDirectEncryptsEachBlock : Obligations.EncstrDirectEncryptsEachBlock := by
  intro s hmax hmod hin hcbc
  obtain ⟨ps, hlen, hibuf, hexec⟩ := exec_encstr_blocks hmod hin
  rw [hcbc] at hexec
  exact ⟨_, hexec, setOutput_map_spec (encryptBlock s.k) hlen hmax hibuf rfl⟩

/-- Settles O29: plaintext block j is made of the stream blocks j and j+1, both of which stand in IBUF. -/
theorem decstrUnchainsTheBlocks : Obligations.DecstrUnchainsTheBlocks := by
  intro s hmax hmod htwo hin hcbc
  obtain ⟨cs, hlen, hibuf, hexec⟩ := exec_decstr_blocks hmod (fun _ => htwo) hin
  rw [hcbc] at hexec
  have hn : 8 * (decryptBlocks s.k true cs).length = s.ilen.toNat - 8 := by
    rw [decryptBlocks_length, if_pos rfl]; omega
  obtain ⟨holen, herr, hobuf, hframe⟩ := setOutput_blocks_spec s hn (by omega) rfl
  refine ⟨_, hexec, holen, herr, fun j hj => ?_, hframe⟩
  have hv := List.getElem?_eq_getElem (show j < cs.length by omega)
  have hc := List.getElem?_eq_getElem (show j + 1 < cs.length by omega)
  exact ⟨_, _, _, hibuf j _ hv, hibuf (j + 1) _ hc, rfl, hobuf j _ (decryptBlocks_chained_getElem? s.k hv hc)⟩

/-- Settles O30: the plaintext is the decrypted blocks in their order. -/
theorem decstrDirectDecryptsEachBlock : Obligations.DecstrDirectDecryptsEachBlock := by
  intro s hmax hmod hin hcbc
  obtain ⟨cs, hlen, hibuf, hexec⟩ := exec_decstr_blocks hmod (by simp [hcbc]) hin
  rw [hcbc] at hexec
  exact ⟨_, hexec, setOutput_map_spec (decryptBlock s.k) hlen hmax hibuf rfl⟩

end Sys2Proof.Machine
end

section
/-! Padding and stripping of byte sequences (spec/44_padding.md R150, R152). Stripping drops from the right while a byte is in
WS: it is `List.rdropWhile` of the library. -/
namespace Sys2Proof.Machine

theorem inWs_iff {ws : List Byte} {b : Byte} : inWs ws b = true ↔ b ∈ ws := List.contains_iff_mem

theorem inWs_eq_false_iff {ws : List Byte} {b : Byte} : inWs ws b = false ↔ b ∉ ws := by
  rw [← inWs_iff, Bool.not_eq_true]

/-- R150: the padded length is the least multiple of 8 that is not less than the length. -/
theorem add_padCount (n : Nat) : n + padCount n = 8 * ((n + 7) / 8) := by
  unfold padCount; omega

theorem padBytes_length (p : List Byte) : (padBytes p).length = 8 * ((p.length + 7) / 8) := by
  rw [padBytes, List.length_append, List.length_replicate, add_padCount]

theorem stripBytes_concat_of_inWs {ws : List Byte} {b : Byte} (h : inWs ws b = true) (p : List Byte) :
    stripBytes ws (p ++ [b]) = stripBytes ws p :=
  List.rdropWhile_concat_pos _ _ _ h

theorem stripBytes_concat_of_not_inWs {ws : List Byte} {b : Byte} (h : inWs ws b = false) (p : List Byte) :
    stripBytes ws (p ++ [b]) = p ++ [b] :=
  List.rdropWhile_concat_neg _ _ _ (by simp [h])

/-- R152: what stripping keeps, followed by what it cuts off. -/
theorem stripBytes_append_cut (ws p : List Byte) : stripBytes ws p ++ p.rtakeWhile (inWs ws) = p :=
  List.rdropWhile_append_rtakeWhile

theorem stripBytes_length_le (ws p : List Byte) : (stripBytes ws p).length ≤ p.length :=
  (List.rdropWhile_prefix _ _).length_le

/-- R152: what stripping keeps does not end in WS. -/
theorem not_mem_of_getLast?_stripBytes {ws p : List Byte} {b : Byte} (h : (stripBytes ws p).getLast? = some b) : b ∉ ws := by
  obtain ⟨hne, rfl⟩ := List.mem_getLast?_eq_getLast h
  exact fun hmem => List.rdropWhile_last_not _ _ hne (inWs_iff.mpr hmem)

/-- R152: a sequence that does not end in WS is kept whole. -/
theorem stripBytes_eq_self {ws p : List Byte} (h : ∀ b, p.getLast? = some b → b ∉ ws) : stripBytes ws p = p :=
  List.rdropWhile_eq_self_iff.mpr fun hne hws => h _ (List.getLast?_eq_getLast_of_ne_nil hne) (inWs_iff.mp hws)

/-- R152: bytes of WS at the end are lost. -/
theorem stripBytes_append_replicate {ws : List Byte} {b : Byte} (h : b ∈ ws) (p : List Byte) (n : Nat) :
    stripBytes ws (p ++ List.replicate n b) = stripBytes ws p := by
  induction n with
  | zero => rw [List.replicate_zero, List.append_nil]
  | succ n ih => rw [List.replicate_succ', ← List.append_assoc, stripBytes_concat_of_inWs (inWs_iff.mpr h), ih]

/-- R157: stripping takes the padding off again, for every WS of the engine. -/
theorem stripBytes_padBytes (c : Config) (p : List Byte) : stripBytes c.ws (padBytes p) = stripBytes c.ws p :=
  stripBytes_append_replicate List.mem_cons_self p _

/-- Settles O52: the pad bytes are `padCount` many, and stripping cuts off the longest suffix of WS bytes. -/
theorem paddingAndStrippingOfBytes : Obligations.PaddingAndStrippingOfBytes := by
  refine ⟨fun p => ?_, fun ws p => ?_⟩
  · obtain ⟨hlt, hmod⟩ := padCount_spec p.length
    exact ⟨padCount p.length, hlt, rfl, hmod⟩
  · exact ⟨p.rtakeWhile (inWs ws), (stripBytes_append_cut ws p).symm,
      fun _ hb => inWs_iff.mp (List.mem_rtakeWhile_imp hb), fun _ => not_mem_of_getLast?_stripBytes⟩

end Sys2Proof.Machine
end

section
/-! PAD and STRIP (spec/44_padding.md R151, R153). -/
namespace Sys2Proof.Machine

variable {s : State}

/-! ### The bytes a buffer holds -/

theorem Holds.congr {m m' : Memory} {a : Nat} {bs : List Byte} (h : Holds m a bs)
    (hread : ∀ i < bs.length, m'.read (a + i) = m.read (a + i)) : Holds m' a bs :=
  fun i hi => (hread i hi).trans (h i hi)

theorem Holds.append {m : Memory} {a : Nat} {bs cs : List Byte} (h : Holds m a bs) (h' : Holds m (a + bs.length) cs) :
    Holds m a (bs ++ cs) := by
  intro i hi
  rw [List.length_append] at hi
  by_cases hlt : i < bs.length
  · rw [h i hlt, List.getElem?_append_left hlt]
  · have hread := h' (i - bs.length) (by omega)
    rw [show a + bs.length + (i - bs.length) = a + i by omega] at hread
    rw [hread, List.getElem?_append_right (by omega)]

theorem Holds.stripBytes {m : Memory} {a : Nat} {p : List Byte} (h : Holds m a p) (ws : List Byte) :
    Holds m a (stripBytes ws p) := by
  rw [← stripBytes_append_cut ws p] at h
  exact h.append_left

/-! ### PAD -/

/-- R151: ILEN after PAD, for every legal ILEN. -/
theorem padOp_ilen_of_le (h : s.ilen.toNat ≤ s.cfg.maxlen) :
    (padOp s).ilen.toNat = s.ilen.toNat + padCount s.ilen.toNat := by
  obtain ⟨-, -, hmax⟩ := maxlen_bounds s.cfg
  exact padOp_ilen (by omega)

/-- R151: the pad bytes stand in IBUF from the old ILEN on. -/
theorem padOp_holds_pad (s : State) :
    Holds (padOp s).ibuf s.ilen.toNat (List.replicate (padCount s.ilen.toNat) padByte) :=
  Memory.holds_writeBytes _ _ _

/-- R151: PAD writes no other byte of IBUF. -/
theorem padOp_ibuf_outside (s : State) :
    SameBytesOutside s.ibuf (padOp s).ibuf s.ilen.toNat (padCount s.ilen.toNat) := by
  have hout := Memory.read_writeBytes_outside s.ibuf s.ilen.toNat (List.replicate (padCount s.ilen.toNat) padByte)
  rwa [List.length_replicate] at hout

/-- The same with the number of bytes as ILEN shows it. -/
theorem padOp_ibuf_outside_ilen (h : s.ilen.toNat ≤ s.cfg.maxlen) :
    SameBytesOutside s.ibuf (padOp s).ibuf s.ilen.toNat ((padOp s).ilen.toNat - s.ilen.toNat) := by
  rw [padOp_ilen_of_le h, Nat.add_sub_cancel_left]
  exact padOp_ibuf_outside s

/-- Settles O25: PAD appends `padCount` bytes 0x20 to the input. -/
theorem padFillsUpToTheNextBlock : Obligations.PadFillsUpToTheNextBlock := by
  intro s hmax
  have hilen := padOp_ilen_of_le hmax
  refine ⟨padOp s, rfl, hilen.trans (add_padCount _), hilen.trans_le (add_padCount_le_maxlen hmax), fun a hle hlt => ?_,
    padOp_ibuf_outside_ilen hmax, State.setErr_err _ .ok, padOp_sameSelftestBits s, ?_⟩
  · have hi : a - s.ilen.toNat < padCount s.ilen.toNat := by omega
    have hread := padOp_holds_pad s (a - s.ilen.toNat) (by rwa [List.length_replicate])
    rwa [Nat.add_sub_cancel' hle, List.getElem?_replicate_of_lt hi] at hread
  · simp [padOp, SameBytes, SameOutside]

/-! ### STRIP -/

/-- R153: on the bytes `p` the stripping loop answers the length of what stripping `p` keeps. -/
theorem stripLoop_of_holds (ws : List Byte) {m : Memory} (p : List Byte) (h : Holds m 0 p) :
    stripLoop ws m p.length = some (stripBytes ws p).length := by
  induction p using List.reverseRecOn with
  | nil => rfl
  | append_singleton p b ih =>
    have hb := h.append_right.head
    rw [Nat.zero_add] at hb
    rw [List.length_append, List.length_singleton, stripLoop, hb]
    cases hws : inWs ws b with
    | true => simpa [hws, stripBytes_concat_of_inWs hws] using ih h.append_left
    | false => simp [hws, stripBytes_concat_of_not_inWs hws]

theorem stripOp_of_holds {p : List Byte} (hlen : p.length = s.olen.toNat) (hp : Holds s.obuf 0 p) :
    stripOp s = .next ((s.setOlen (stripBytes s.cfg.ws p).length).setErr .ok) := by
  rw [stripOp, ← hlen, stripLoop_of_holds s.cfg.ws p hp]

/-- A length that is not above the value of a register fits a register. -/
theorem toNat_ofNat_of_le_toNat {n : Nat} {w : Word} (h : n ≤ w.toNat) : (BitVec.ofNat 32 n).toNat = n := by
  rw [BitVec.toNat_ofNat, Nat.mod_eq_of_lt (h.trans_lt w.isLt)]

/-- Settles O26: the stripping loop answers, and OLEN takes its answer. -/
theorem stripCutsTheTrailingWhitespace : Obligations.StripCutsTheTrailingWhitespace := by
  intro s hout
  obtain ⟨n, hloop, hstrip⟩ := stripOp_next hout
  obtain ⟨hle, hcut, hlast⟩ := stripLoop_spec _ _ _ _ hloop
  refine ⟨_, hstrip, ?_⟩
  rw [State.setErr_olen, State.setOlen_olen, toNat_ofNat_of_le_toNat hle]
  refine ⟨hle, fun a hna han => ?_, hlast.imp_right fun ⟨b, hb, hws⟩ => ⟨b, inWs_eq_false_iff.mp hws, hb⟩,
    State.setErr_err _ .ok, stripOp_sameSelftestBits hstrip, ?_⟩
  · obtain ⟨b, hb, hws⟩ := hcut a hna han
    exact ⟨b, inWs_iff.mp hws, hb⟩
  · simp [SameBytes, SameOutside]

end Sys2Proof.Machine
end

section
/-! ENCRYPT and DECRYPT (spec/44_padding.md R155, R156), and what comes back of a message (R157, R158). -/
namespace Sys2Proof.Machine

variable {s u : State}

/-! ### ENCRYPT -/

/-- R24: the input of a command is the bytes IBUF holds below ILEN. -/
theorem inputOperand_of_holds {p : List Byte} (hlen : p.length = s.ilen.toNat) (hp : Holds s.ibuf 0 p) :
    inputOperand s = some p :=
  (Memory.readBytes_eq_some_iff _ _ _ _).mpr ⟨hlen, hp⟩

/-- R151: the input after PAD is the padded input. -/
theorem inputOperand_padOp (hmax : s.ilen.toNat ≤ s.cfg.maxlen) {p : List Byte} (hlen : p.length = s.ilen.toNat)
    (hp : Holds s.ibuf 0 p) : inputOperand (padOp s) = some (padBytes p) := by
  have hkept : Holds (padOp s).ibuf 0 p := hp.congr fun i hi => padOp_ibuf_outside s _ (.inl (by omega))
  have hpad : Holds (padOp s).ibuf (0 + p.length) (List.replicate (padCount p.length) padByte) := by
    rw [Nat.zero_add, hlen]
    exact padOp_holds_pad s
  refine inputOperand_of_holds ?_ (hkept.append hpad)
  rw [padOp_ilen_of_le hmax, padBytes_length, add_padCount, hlen]

/-- R155: ENCRYPT stores the stream of the padded message. -/
theorem exec_encrypt_of_holds (hmax : s.ilen.toNat ≤ s.cfg.maxlen) {p : List Byte} (hlen : p.length = s.ilen.toNat)
    (hp : Holds s.ibuf 0 p) : exec .encrypt s =
      .next (((padOp s).setOutput (encryptStream s.k (padBytes p) s.cbc (ivOperand s))).setErr .ok) := by
  have hmod : (padOp s).ilen.toNat % 8 = 0 := by rw [padOp_ilen_of_le hmax, add_padCount]; omega
  exact encstrOp_of_input hmod (inputOperand_padOp hmax hlen hp)

/-- R155: the length of that stream. -/
theorem encryptStream_padBytes_length (k : Key) (p : List Byte) (cbc : Bool) (iv : Block) :
    (encryptStream k (padBytes p) cbc iv).length = 8 * ((p.length + 7) / 8) + if cbc then 8 else 0 :=
  encryptStream_length k (padBytes p) cbc iv _ (padBytes_length p)

/-- Settles O32: PAD leaves whole blocks of written input, and ENCSTR stores their stream. -/
theorem encryptIsPadThenEncstr : Obligations.EncryptIsPadThenEncstr := by
  intro s hmax hin
  obtain ⟨p, -, hlen, hp⟩ := Memory.readBytes_of_written s.ibuf 0 s.ilen.toNat fun i hi => by
    rw [Nat.zero_add]; exact hin i hi
  have hexec := exec_encrypt_of_holds hmax hlen hp
  have hilen : (padOp s).ilen.toNat = 8 * ((s.ilen.toNat + 7) / 8) := (padOp_ilen_of_le hmax).trans (add_padCount _)
  have hn : 8 * (encryptBlocks s.k s.cbc (ivOperand s) (blocksOf (padBytes p))).length =
      8 * ((s.ilen.toNat + 7) / 8) + if s.cbc then 8 else 0 := by
    rw [← blocksToBytes_length, ← hlen]
    exact encryptStream_padBytes_length _ _ _ _
  have hfit := add_padCount_le_maxlen hmax
  rw [add_padCount] at hfit
  obtain ⟨holen, herr, -, hout, hself, -⟩ := setOutput_blocks_spec (padOp s) hn
    (show _ ≤ s.cfg.maxlen + 8 by split <;> omega) rfl
  refine ⟨padOp s, _, rfl, hexec, hexec, herr, holen, rfl, fun _ => rfl, hilen, padOp_ibuf_outside_ilen hmax,
    holen ▸ hout, (padOp_sameSelftestBits s).trans hself, ?_⟩
  simp [padOp, SameOutside]

/-! ### DECRYPT -/

/-- R156: DECRYPT past its checks is STRIP on the state that DECSTR leaves. -/
theorem execDecrypt_of_execDecstr (hcheck : decryptCheck s = none) (hu : execDecstr s = .next u) :
    execDecrypt s = stripOp u := by
  rw [execDecstr, hcheck] at hu
  rw [execDecrypt, hcheck]
  simp only at hu
  simp only [hu, andThen]

/-- R134: the plaintext is not longer than the stream. -/
theorem decryptStream_length_le_ilen (hcheck : decryptCheck s = none) {c : List Byte} (hlen : c.length = s.ilen.toNat) :
    (decryptStream s.k c s.cbc).length ≤ s.ilen.toNat := by
  have hmod := ilen_mod_eight_of_decryptCheck hcheck
  have hplain := decryptStream_length s.k c s.cbc (s.ilen.toNat / 8) (by omega)
  omega

/-- R222: the output bytes are the ones the command stored. -/
theorem setOutput_outputWritten (s : State) (bs : List Byte) : OutputWritten (s.setOutput bs) := by
  intro a ha
  obtain ⟨hread, hlt⟩ := State.setOutput_read s bs ha
  rw [hread, List.getElem?_eq_getElem hlt]
  rfl

/-- Settles O33: DECSTR succeeds and leaves a written output, on which STRIP answers. -/
theorem decryptIsDecstrThenStrip : Obligations.DecryptIsDecstrThenStrip := by
  intro s hmax hmod hcbc hin
  have hcheck := decryptCheck_eq_none hmod hcbc
  obtain ⟨c, hc, -, -⟩ := inputOperand_blocks hmod hin
  have hdecstr := execDecstr_of_input hcheck hc
  have holen := toNat_ofNat_of_le_toNat (decryptStream_length_le_ilen hcheck (inputOperand_length hc))
  have hout := Memory.read_writeBytes_outside s.obuf 0 (decryptStream s.k c s.cbc)
  have hself := setErr_sameSelftestBits s (s.setOutput (decryptStream s.k c s.cbc)) .ok rfl
  obtain ⟨n, hloop, hstrip⟩ := stripOp_next (s := (s.setOutput (decryptStream s.k c s.cbc)).setErr .ok)
    (setOutput_outputWritten s _)
  obtain ⟨hle, -, -⟩ := stripLoop_spec _ _ _ _ hloop
  refine ⟨_, _, hdecstr, hstrip, (execDecrypt_of_execDecstr hcheck hdecstr).trans hstrip, State.setErr_err _ .ok,
    (State.setOlen_olen_le s n).trans hle, fun _ => rfl, holen ▸ hout,
    hself.trans (stripOp_sameSelftestBits hstrip), ?_⟩
  simp [SameBytes, SameOutside]

/-- R156: DECRYPT of the stream `c` in IBUF leaves its stripped plaintext in OBUF. -/
theorem exec_decrypt_of_holds (hcheck : decryptCheck s = none) {c : List Byte} (hlen : c.length = s.ilen.toNat)
    (hc : Holds s.ibuf 0 c) : ∃ t, exec .decrypt s = .next t ∧ t.err = 0#2 ∧
      t.olen.toNat = (stripBytes s.cfg.ws (decryptStream s.k c s.cbc)).length ∧
      Holds t.obuf 0 (stripBytes s.cfg.ws (decryptStream s.k c s.cbc)) := by
  have hdecstr := execDecstr_of_input hcheck (inputOperand_of_holds hlen hc)
  have hfit := decryptStream_length_le_ilen hcheck hlen
  have hout := Memory.holds_writeBytes s.obuf 0 (decryptStream s.k c s.cbc)
  have hstrip := stripOp_of_holds (s := (s.setOutput (decryptStream s.k c s.cbc)).setErr .ok)
    (toNat_ofNat_of_le_toNat hfit).symm hout
  exact ⟨_, (execDecrypt_of_execDecstr hcheck hdecstr).trans hstrip, State.setErr_err _ .ok,
    toNat_ofNat_of_le_toNat ((stripBytes_length_le _ _).trans hfit), hout.stripBytes _⟩

/-! ### Whole messages -/

/-- R157: the stream of a padded message that leaves 8 bytes of IBUF free fits IBUF. -/
theorem encryptStream_padBytes_length_le (k : Key) (cbc : Bool) (iv : Block) {p : List Byte} {c : Config}
    (h : p.length + 8 ≤ c.maxlen) : (encryptStream k (padBytes p) cbc iv).length ≤ c.maxlen := by
  obtain ⟨hmax, -, -⟩ := maxlen_bounds c
  rw [encryptStream_padBytes_length]
  split <;> omega

/-- R157: DECRYPT of the stream of a padded message leaves the stripped message. -/
theorem exec_decrypt_encryptStream {p : List Byte} {iv : Block} (hcbc : s.cbc = true → 1 ≤ p.length)
    (hlen : (encryptStream s.k (padBytes p) s.cbc iv).length = s.ilen.toNat)
    (hin : Holds s.ibuf 0 (encryptStream s.k (padBytes p) s.cbc iv)) :
    ∃ t, exec .decrypt s = .next t ∧ t.err = 0#2 ∧ t.olen.toNat = (stripBytes s.cfg.ws p).length ∧
      Holds t.obuf 0 (stripBytes s.cfg.ws p) := by
  have hilen := hlen.symm.trans (encryptStream_padBytes_length s.k p s.cbc iv)
  have hcheck : decryptCheck s = none := by
    refine decryptCheck_eq_none (by split at hilen <;> omega) fun hc => ?_
    have := hcbc hc
    rw [if_pos hc] at hilen
    omega
  have hplain : decryptStream s.k (encryptStream s.k (padBytes p) s.cbc iv) s.cbc = padBytes p :=
    decryptStream_encryptStream s.k s.cbc iv (by rw [padBytes_length]; omega)
  have hdecrypt := exec_decrypt_of_holds hcheck hlen hin
  rwa [hplain, stripBytes_padBytes] at hdecrypt

/-- Settles O53: the stream ENCRYPT stores fits IBUF, and decrypting it gives the padded message, from which STRIP takes
the padding and the WS bytes before it. -/
theorem messageComesBackStripped : Obligations.MessageComesBackStripped := by
  intro s p hlen hp hfit hcbc
  refine ⟨_, exec_encrypt_of_holds (by omega) hlen hp, fun u hk hmode hcfg hilen hin => ?_⟩
  rw [State.setErr_olen, State.setOutput_olen] at hilen hin
  have holen := toNat_ofNat_of_le_maxlen (encryptStream_padBytes_length_le s.k s.cbc (ivOperand s) hfit)
  have hheld : Holds u.ibuf 0 (encryptStream s.k (padBytes p) s.cbc (ivOperand s)) :=
    (Memory.holds_writeBytes (padOp s).obuf 0 _).congr fun i hi => hin _ (by omega)
  rw [← hilen, ← hk, ← hmode] at holen
  rw [← hk, ← hmode] at hheld
  rw [← hcfg]
  exact exec_decrypt_encryptStream (hmode ▸ hcbc) holen.symm hheld

/-- Settles O54: such a message is what stripping keeps of it. -/
theorem messageRoundTrip : Obligations.MessageRoundTrip := by
  intro s p hlen hp hfit hcbc hlast
  have hback := messageComesBackStripped s p hlen hp hfit hcbc
  rwa [stripBytes_eq_self hlast] at hback

end Sys2Proof.Machine
end

section
/-! Host access to the registers (spec/45_system.md R174, R175): one step reads or writes the register at an offset. -/
namespace Sys2Proof.Machine

variable {s t : State} {a b v wd : Word} {rest : List HostInput} {off : Nat} {r : Reg}

/-! ### Reads -/

/-- R174, R232: a step whose input is a read at the offset of a readable register observes the value. -/
theorem step_readReg_at
    (hp : s.pending = .bus { rw := .read, width := 4, addr := BitVec.ofNat 32 off, wdata := wd } a b :: rest)
    (hoff : off = r.offset) (hv : readReg (s.taken rest a b) r = some v) :
    step s = .next { s.taken rest a b with observed := s.observed ++ [v] } := by
  subst hoff
  rw [step_bus_next hp (transact_readReg r wd _), readRegister, hv]
  rfl

/-- A mask with the `n` low bits set keeps a word that has no other bit. -/
theorem and_mask_eq_self {w mask : Word} {n : Nat} (hmask : ∀ i < n, mask.getLsbD i = true)
    (hzero : w.extractLsb' n (32 - n) = 0#(32 - n)) : w &&& mask = w := by
  apply BitVec.eq_of_getLsbD_eq
  intro i hi
  rw [BitVec.getLsbD_and]
  by_cases hn : i < n
  · rw [hmask i hn, Bool.and_true]
  · have hbit : (w.extractLsb' n (32 - n)).getLsbD (i - n) = false := by rw [hzero, BitVec.getLsbD_zero]
    rw [BitVec.getLsbD_extractLsb', Nat.add_sub_cancel' (by omega), decide_eq_true (by omega), Bool.true_and] at hbit
    rw [hbit, Bool.false_and]

/-- R22: STATUS reads as it is stored when its reserved bits are 0. -/
theorem statusRead_of_reserved (h : s.statusReserved = 0) : statusRead s.status = s.status :=
  and_mask_eq_self (n := 4) (by decide) h

/-- R23: so does CTRL. -/
theorem ctrlRead_of_reserved (h : s.ctrlReserved = 0) : ctrlRead s.ctrl = s.ctrl :=
  and_mask_eq_self (n := 1) (by decide) h

/-- Settles O8: each row of the table is a register and the value a read of it returns; the reserved bits being 0, the
masks of STATUS and CTRL take nothing away. -/
theorem registerReadsReturnTheRegister : Obligations.RegisterReadsReturnTheRegister := by
  intro s rest off v wd a b hrow hstatus hctrl hp
  suffices hreg : ∃ r : Reg, off = r.offset ∧ readReg (s.taken rest a b) r = some v by
    obtain ⟨r, hoff, hv⟩ := hreg
    exact step_readReg_at hp hoff hv
  simp only [List.mem_cons, Prod.mk.injEq, List.not_mem_nil, or_false] at hrow
  rcases hrow with ⟨rfl, rfl⟩ | ⟨rfl, rfl⟩ | ⟨rfl, rfl⟩ | ⟨rfl, rfl⟩ | ⟨rfl, rfl⟩ | ⟨rfl, rfl⟩ | ⟨rfl, rfl⟩ | ⟨rfl, rfl⟩ |
    ⟨rfl, rfl⟩ | ⟨rfl, rfl⟩ | ⟨rfl, rfl⟩ | ⟨rfl, rfl⟩ | ⟨rfl, rfl⟩ | ⟨rfl, rfl⟩ | ⟨rfl, rfl⟩ | ⟨rfl, rfl⟩
  exacts [⟨.status, rfl, congrArg some (statusRead_of_reserved hstatus)⟩,
    ⟨.ctrl, rfl, congrArg some (ctrlRead_of_reserved hctrl)⟩,
    ⟨.ilen, rfl, rfl⟩, ⟨.olen, rfl, rfl⟩, ⟨.tsec, rfl, rfl⟩, ⟨.tsub, rfl, rfl⟩,
    ⟨.kin0, rfl, rfl⟩, ⟨.kin1, rfl, rfl⟩, ⟨.kin2, rfl, rfl⟩, ⟨.kin3, rfl, rfl⟩,
    ⟨.k0, rfl, rfl⟩, ⟨.k1, rfl, rfl⟩, ⟨.k2, rfl, rfl⟩, ⟨.k3, rfl, rfl⟩, ⟨.y, rfl, rfl⟩, ⟨.z, rfl, rfl⟩]

/-! ### Writes -/

/-- R175: a step whose input is a legal write at the offset of a register other than CMD. -/
theorem step_writeReg_at (r : Reg) (hr : r ≠ .cmd)
    (hp : s.pending = .bus { rw := .write, width := 4, addr := BitVec.ofNat 32 off, wdata := v } a b :: rest)
    (hw : writeReg (s.taken rest a b) v r = some t) (hoff : off = r.offset) : step s = .next t := by
  subst hoff
  exact step_wr hr hp hw

/-- R23, R175: CTRL takes bit 0 of the value alone. -/
theorem ctrlWritten_eq_ite (v : Word) : ctrlWritten v = if v.getLsbD 0 then 1#32 else 0#32 := by
  rw [ctrlWritten, BitVec.and_one_eq_setWidth_ofBool_getLsbD]
  cases v.getLsbD 0 <;> rfl

/-- Settles O9: each offset is that of a register whose write the model answers with the state claimed. -/
theorem registerWritesStoreTheValue : Obligations.RegisterWritesStoreTheValue := by
  intro s rest off v a b hp
  have hctrl : writeReg (s.taken rest a b) v .ctrl =
      some { s.taken rest a b with ctrl := if v.getLsbD 0 then 1#32 else 0#32 } := by
    rw [← ctrlWritten_eq_ite]
    rfl
  exact ⟨step_writeReg_at .ctrl (by decide) hp hctrl,
    fun hoff hv => step_writeReg_at .ilen (by decide) hp (writeIlen_of_le hv) hoff,
    step_writeReg_at .kin0 (by decide) hp rfl,
    step_writeReg_at .kin1 (by decide) hp rfl,
    step_writeReg_at .kin2 (by decide) hp rfl,
    step_writeReg_at .kin3 (by decide) hp rfl,
    step_writeReg_at .y (by decide) hp rfl,
    step_writeReg_at .z (by decide) hp rfl⟩

end Sys2Proof.Machine
end

section
/-! Host access to the buffers (spec/45_system.md R177) by the symbolic address of an offset. -/
namespace Sys2Proof.Machine

variable {s : State} {x : Txn} {a b v : Word} {rest : List HostInput} {off n limit base : Nat} {m : Memory} {bs : List Byte}

/-! ### Legal accesses -/

/-- R41, R48: what a buffer access is checked for. -/
theorem accessLegal_iff :
    accessLegal x limit = true ↔ (x.width = 1 ∨ (x.width = 4 ∧ x.offset % 4 = 0)) ∧ x.offset + x.width ≤ limit := by
  simp [accessLegal]

/-- R177: what a legal access to a buffer comes to, by direction. -/
theorem accessIbuf_write (hrw : x.rw = .write) (h : accessLegal x s.cfg.maxlen = true) :
    accessIbuf x s = ({ s with ibuf := s.ibuf.writeBytes x.offset (storedBytes x) }, 0) := by
  rw [accessIbuf, if_pos h, hrw]

theorem accessIbuf_read (hrw : x.rw = .read) (h : accessLegal x s.cfg.maxlen = true) :
    accessIbuf x s = readBuffer s.ibuf x s := by
  rw [accessIbuf, if_pos h, hrw]

theorem accessObuf_read (hrw : x.rw = .read) (h : accessLegal x s.olen.toNat = true) :
    accessObuf x s = readBuffer s.obuf x s := by
  simp only [accessObuf, hrw, if_pos h]

/-- R177: a read of bytes that hold values replies with them and draws no free byte. -/
theorem readBuffer_of_written (h : m.readBytes x.offset x.width = some bs) : readBuffer m x s = (s, replyWord bs) := by
  rw [readBuffer, drawBytes_of_written _ _ _ _ _ h]

/-! ### Writes of IBUF -/

/-- R177: a legal write of IBUF, of either width, stores its bytes. -/
theorem transact_writeIbuf (hw : n = 1 ∨ (n = 4 ∧ off % 4 = 0)) (hl : off + n ≤ s.cfg.maxlen) :
    transact { rw := .write, width := n, addr := ibufAddr off, wdata := v } s =
      .next ({ s with
        ibuf := s.ibuf.writeBytes off (storedBytes { rw := .write, width := n, addr := ibufAddr off, wdata := v }) }, 0) := by
  have hoff := lt_of_add_le_maxlen hl
  rw [transact_ibuf (spaceOf_ibufAddr hoff _ _ _), accessIbuf_write rfl (accessLegal_ibufAddr hoff hw hl _),
    offset_ibufAddr hoff]

/-- Settles O10: the bytes stored are as many as the width, `Memory.holds_writeBytes` reads them back, and
`Memory.read_writeBytes_outside` is the frame. -/
theorem ibufWritesStoreTheBytes : Obligations.IbufWritesStoreTheBytes := by
  intro s rest off width v a b hw hl hp
  have hstep := step_bus_next hp (transact_writeIbuf (s := s.taken rest a b) hw hl)
  rcases hw with rfl | ⟨rfl, -⟩
  · have hbytes : ∀ i < 1, (s.ibuf.writeBytes off [byteOf v 0]).read (off + i) = [byteOf v 0][i]? :=
      Memory.holds_writeBytes s.ibuf off [byteOf v 0]
    exact ⟨_, hstep, rfl, Memory.read_writeBytes_outside s.ibuf off [byteOf v 0],
      fun _ => hbytes 0 (by decide), fun h => absurd h (by decide)⟩
  · have hbytes : ∀ i < 4, (s.ibuf.writeBytes off (wordToBytes v)).read (off + i) = (wordToBytes v)[i]? :=
      Memory.holds_writeBytes s.ibuf off (wordToBytes v)
    exact ⟨_, hstep, rfl, Memory.read_writeBytes_outside s.ibuf off (wordToBytes v), fun h => absurd h (by decide),
      fun _ => ⟨hbytes 0 (by decide), hbytes 1 (by decide), hbytes 2 (by decide), hbytes 3 (by decide)⟩⟩

/-! ### Reads of written bytes -/

/-- R177: a buffer a host can read: its base address, its bytes, and the limit its readable offsets are below; OLEN is in its
range, so that the offsets are within the 30 bits of an address. -/
def ReadableBuffer (s : State) (base limit : Nat) (m : Memory) : Prop :=
  (base = 0x40000000 ∧ m = s.ibuf ∧ limit = s.cfg.maxlen) ∨
    (base = 0x80000000 ∧ m = s.obuf ∧ limit = s.olen.toNat ∧ s.olen.toNat ≤ s.cfg.maxlen + 8)

/-- R177: a legal read of OBUF bytes that are written replies with them and draws no free byte. -/
theorem transact_readObuf (hw : n = 1 ∨ (n = 4 ∧ off % 4 = 0)) (hl : off + n ≤ s.olen.toNat)
    (holen : s.olen.toNat ≤ s.cfg.maxlen + 8) (hbs : s.obuf.readBytes off n = some bs) :
    transact { rw := .read, width := n, addr := obufAddr off, wdata := v } s = .next (s, replyWord bs) := by
  obtain ⟨-, -, hmax⟩ := maxlen_bounds s.cfg
  have hoff := offset_obufAddr (off := off) (by omega) .read n v
  rw [transact_obuf (spaceOf_obufAddr (by omega) _ _ _),
    accessObuf_read rfl (accessLegal_iff.mpr (by rw [hoff]; exact ⟨hw, hl⟩)), readBuffer_of_written (by rwa [hoff])]

/-- R177, R232: a step whose input is such a read of either buffer observes the bytes. -/
theorem step_readBuffer (hbuf : ReadableBuffer s base limit m) (hw : n = 1 ∨ (n = 4 ∧ off % 4 = 0))
    (hl : off + n ≤ limit) (hbs : m.readBytes off n = some bs)
    (h : s.pending = .bus { rw := .read, width := n, addr := BitVec.ofNat 32 (base + off), wdata := v } a b :: rest) :
    step s = .next { s.taken rest a b with observed := s.observed ++ [replyWord bs] } := by
  rcases hbuf with ⟨rfl, rfl, rfl⟩ | ⟨rfl, rfl, rfl, holen⟩
  · exact step_readIbuf hw hl hbs h
  · exact step_bus_next h (transact_readObuf (s := s.taken rest a b) hw hl holen hbs)

/-- Settles O11: the bytes hold values, so the read replies with them and draws none. -/
theorem bufferReadsReturnTheBytes : Obligations.BufferReadsReturnTheBytes := by
  intro s rest off base limit m b0 b1 b2 b3 wd a b hbuf
  refine ⟨fun hl h0 hp => ?_, fun halign hl h0 h1 h2 h3 hp => ?_⟩
  · have hbytes : m.readBytes off 1 = some [b0] := by simp [Memory.readBytes, h0]
    exact step_readBuffer hbuf (.inl rfl) hl hbytes hp
  · have hbytes : m.readBytes off 4 = some [b0, b1, b2, b3] := by simp [Memory.readBytes, h0, h1, h2, h3]
    exact step_readBuffer hbuf (.inr ⟨rfl, halign⟩) hl hbytes hp

end Sys2Proof.Machine
end

section
/-! Legal reads (spec/45_system.md R174, R177): every read that is not illegal has a reply and no side effect. -/
namespace Sys2Proof.Machine

variable {s : State} {x : Txn}

/-- R61: an aligned offset of the map, the reserved one apart, is that of a register. -/
theorem exists_reg_of_offset {off : Nat} (halign : off % 4 = 0) (hres : off ≠ 0x1C) (hlt : off < 0x48) :
    ∃ r : Reg, off = r.offset := by
  have hall : ∀ o < 0x48, o % 4 = 0 → o ≠ 0x1C → (regAt o).isSome = true := by decide
  obtain ⟨r, hr⟩ := Option.isSome_iff_exists.mp (hall off hlt halign hres)
  exact ⟨r, regAt_eq_some_iff.mp hr⟩

/-- R174: every register but CMD can be read. -/
theorem readReg_of_ne_cmd (s : State) {r : Reg} (hr : r ≠ .cmd) : ∃ v, readReg s r = some v := by
  cases r with
  | cmd => exact absurd rfl hr
  | status | ctrl | ilen | olen | tsec | tsub | kin0 | kin1 | kin2 | kin3 | k0 | k1 | k2 | k3 | y | z => exact ⟨_, rfl⟩

/-- R174: a read at the offset of a register other than CMD. -/
theorem accessReg_read {r : Reg} (hrw : x.rw = .read) (hw : x.width = 4) (hoff : x.offset = r.offset) (hr : r ≠ .cmd) :
    ∃ v, accessReg x s = .next (s, v) := by
  obtain ⟨v, hv⟩ := readReg_of_ne_cmd s hr
  refine ⟨v, ?_⟩
  rw [accessReg_at hw (regAt_eq_some_iff.mpr hoff), accessRegister, hrw]
  simp [readRegister, hv]

/-- R174, R177: such a read replies with some value; of the state only the count of free bytes may differ. -/
theorem transact_legalRead (hrw : x.rw = .read) (hx : ¬ IllegalAccess s x) :
    ∃ v d, transact x s = .next ({ s with draws := d }, v) := by
  simp only [IllegalAccess, ← offset_eq, not_or] at hx
  obtain ⟨hwidth, halign, hres, hbyte, hmap, hcmd, -, -, -, hibuf, -, hobuf⟩ := hx
  have hform : x.width = 1 ∨ (x.width = 4 ∧ x.offset % 4 = 0) := by omega
  have hspace : spaceOf x = 0 ∨ spaceOf x = 1 ∨ spaceOf x = 2 := by
    have := spaceOf_lt x
    omega
  rcases hspace with hsp | hsp | hsp
  · obtain ⟨r, hr⟩ := exists_reg_of_offset (off := x.offset) (by omega) (by omega) (by omega)
    have hne : r ≠ .cmd := fun h => hcmd ⟨hsp, hrw, by rw [hr, h]; rfl⟩
    obtain ⟨v, hv⟩ := accessReg_read (s := s) hrw (by omega) hr hne
    exact ⟨v, s.draws, by rw [transact_reg hsp, hv]⟩
  · have hlegal : accessLegal x s.cfg.maxlen = true := accessLegal_iff.mpr ⟨hform, by omega⟩
    exact ⟨_, _, by rw [transact_ibuf hsp, accessIbuf_read hrw hlegal]; rfl⟩
  · have hlegal : accessLegal x s.olen.toNat = true := accessLegal_iff.mpr ⟨hform, by omega⟩
    exact ⟨_, _, by rw [transact_obuf hsp, accessObuf_read hrw hlegal]; rfl⟩

/-- Settles O12: the step observes the reply. -/
theorem legalReadsHaveNoSideEffect : Obligations.LegalReadsHaveNoSideEffect := by
  intro s rest x a b hp hrw hx
  obtain ⟨v, d, hreply⟩ := transact_legalRead (s := s.taken rest a b) hrw hx
  exact ⟨v, d, by rw [step_bus_next hp hreply, hrw]; rfl⟩

end Sys2Proof.Machine
end

section
/-! SELFTEST and RESET (spec/45_system.md R171, R172). -/
namespace Sys2Proof.Machine

/-- R171: both vectors match. -/
theorem selftest_vectors_match : (selftestA && selftestB) = true := by
  obtain ⟨hA, hB⟩ := publishedVectorsHold
  rw [selftestA, selftestB, hA, hB, beq_self_eq_true, beq_self_eq_true, Bool.and_self]

/-- R171: SELFTEST writes STATUS, with `STPASS` 1. -/
theorem exec_selftest (s : State) : exec .selftest s = .next (s.setStatus (statusAfterSelftest s.status true)) := by
  rw [exec, execSelftest, selftest_vectors_match]

/-- Settles O34: the write of STATUS sets the three fields and keeps its other bits; the rest of the state is not written. -/
theorem selftestPassesAndTouchesOnlyStatus : Obligations.SelftestPassesAndTouchesOnlyStatus := by
  intro s
  obtain ⟨hA, hB⟩ := publishedVectorsHold
  have hpass : (s.setStatus (statusAfterSelftest s.status true)).stpass = true := statusAfterSelftest_getLsbD s.status true 3
  exact ⟨_, exec_selftest s, hpass.trans (decide_eq_true ⟨hA, hB⟩).symm, hpass,
    statusAfterSelftest_getLsbD s.status true 2, statusAfterSelftest_err s.status true,
    statusAfterSelftest_reserved s.status true,
    rfl, rfl, rfl, rfl, rfl, rfl, rfl, fun _ => rfl, fun _ => rfl, rfl, rfl, rfl, rfl, rfl, rfl⟩

/-- Settles O35: RESET leaves `resetEngine`, which copies what is outside the engine. -/
theorem resetRestoresTheResetValues : Obligations.ResetRestoresTheResetValues := fun s =>
  ⟨s.resetEngine, rfl, resetEngine_hasResetValues s, rfl, rfl, rfl, rfl, rfl, rfl⟩

/-- R172: what RESET leaves depends on nothing but what is outside the engine. -/
theorem resetEngine_congr {s u : State} (h : SameOutside s u) : u.resetEngine = s.resetEngine := by
  obtain ⟨htsec, htsub, hcfg, hpending, hobserved, hdraws⟩ := h
  rw [State.resetEngine, State.resetEngine, htsec, htsub, hcfg, hpending, hobserved, hdraws]

/-- Settles O39: both states are `resetEngine` of states that agree outside the engine. -/
theorem resetErasesThePreviousOwner : Obligations.ResetErasesThePreviousOwner := by
  intro s u t t' hout ht ht'
  cases ht
  cases ht'
  exact resetEngine_congr hout

end Sys2Proof.Machine
end

section
/-! The errors of the stream commands (spec/60_exceptions.md R190, R194, R196, R198): a command raises an error exactly when its
length check fails, and the error it raises leaves what the check reads. -/
namespace Sys2Proof.Machine

variable {s t : State} {i : Instr} {e : ErrCode}

/-! ### The check of each command -/

/-- R132, R134, R156: the check a command makes before it reads a byte. ENCRYPT needs none, because PAD comes first (R191). -/
def lengthCheck (i : Instr) (s : State) : Option ErrCode :=
  match i with
  | .encstr => encryptCheck s
  | .decstr | .decrypt => decryptCheck s
  | _ => none

/-- R194: a failing check is raised, and the command does nothing else. -/
theorem exec_of_lengthCheck_eq_some (h : lengthCheck i s = some e) : exec i s = .next (s.raise e) := by
  cases i with
  | encstr =>
    have hcheck : encryptCheck s = some e := h
    rw [exec, execEncstr, encstrOp, hcheck]
  | decstr =>
    have hcheck : decryptCheck s = some e := h
    rw [exec, execDecstr, hcheck]
  | decrypt =>
    have hcheck : decryptCheck s = some e := h
    rw [exec, execDecrypt, hcheck]
  | _ => cases h

/-! ### Which length fails which check -/

theorem encryptCheck_of_mod_eight (h8 : s.ilen.toNat % 8 ≠ 0) : encryptCheck s = some .malformedInput := if_pos h8

theorem decryptCheck_of_mod_four (h4 : s.ilen.toNat % 4 ≠ 0) : decryptCheck s = some .malformedInput := if_pos h4

theorem decryptCheck_of_mod_eight (h4 : s.ilen.toNat % 4 = 0) (h8 : s.ilen.toNat % 8 ≠ 0) :
    decryptCheck s = some .truncatedInput := by
  rw [decryptCheck, if_neg (not_not.mpr h4), if_pos h8]

theorem decryptCheck_of_lt_two_blocks (h8 : s.ilen.toNat % 8 = 0) (hcbc : s.cbc = true) (h2 : s.ilen.toNat / 8 < 2) :
    decryptCheck s = some .truncatedInput := by
  have h4 : s.ilen.toNat % 4 = 0 := by omega
  rw [decryptCheck, if_neg (not_not.mpr h4), if_neg (not_not.mpr h8), hcbc, decide_eq_true h2]
  rfl

/-- R194: what a raised error writes and what it leaves unchanged. -/
theorem raise_frame (s : State) (e : ErrCode) :
    (s.raise e).err = e.code ∧ (s.raise e).olen = 0 ∧ SameSelftestBits s (s.raise e) ∧
      (s.raise e).k = s.k ∧ (s.raise e).kin = s.kin ∧ (s.raise e).y = s.y ∧ (s.raise e).z = s.z ∧
      (s.raise e).ctrl = s.ctrl ∧ (s.raise e).ilen = s.ilen ∧
      SameBytes s.ibuf (s.raise e).ibuf ∧ SameBytes s.obuf (s.raise e).obuf ∧ SameOutside s (s.raise e) :=
  ⟨State.raise_err s e, rfl, raise_sameSelftestBits s e, rfl, rfl, rfl, rfl, rfl, rfl, fun _ => rfl, fun _ => rfl,
    rfl, rfl, rfl, rfl, rfl, rfl⟩

/-- Settles O31: the length fails a check of the command, which then raises the code of that check. -/
theorem wrongLengthsRaiseTheError : Obligations.WrongLengthsRaiseTheError := by
  intro s i code hwrong
  have hfail : ∃ e, lengthCheck i s = some e ∧ e.code = code := by
    rcases hwrong with ⟨rfl, h8, rfl⟩ | ⟨hi, hlen⟩
    · exact ⟨_, encryptCheck_of_mod_eight h8, rfl⟩
    · have hcheck : lengthCheck i s = decryptCheck s := by rcases hi with rfl | rfl <;> rfl
      rw [hcheck]
      rcases hlen with ⟨h4, rfl⟩ | ⟨h4, h8, rfl⟩ | ⟨h8, hcbc, h2, rfl⟩
      · exact ⟨_, decryptCheck_of_mod_four h4, rfl⟩
      · exact ⟨_, decryptCheck_of_mod_eight h4 h8, rfl⟩
      · exact ⟨_, decryptCheck_of_lt_two_blocks h8 hcbc h2, rfl⟩
  obtain ⟨e, he, rfl⟩ := hfail
  exact ⟨s.raise e, exec_of_lengthCheck_eq_some he, raise_frame s e⟩

/-! ### A command that fails no check ends with `ERR` 0 -/

/-- R151: PAD leaves whole blocks, also where ILEN wraps: 2^32 is a multiple of 8. -/
theorem padOp_ilen_mod_eight (s : State) : (padOp s).ilen.toNat % 8 = 0 := by
  obtain ⟨-, hmod⟩ := padCount_spec s.ilen.toNat
  have hilen : (padOp s).ilen = BitVec.ofNat 32 (s.ilen.toNat + padCount s.ilen.toNat) := by simp [padOp]
  rw [hilen, BitVec.toNat_ofNat]
  omega

theorem encstrOp_err (hcheck : encryptCheck s = none) (ht : encstrOp s = .next t) : t.err = 0#2 := by
  rcases encstrOp_cases ht with ⟨e, he, -⟩ | ⟨-, p, -, rfl⟩
  · rw [hcheck] at he; cases he
  · exact State.setErr_err _ .ok

theorem execDecstr_err (hcheck : decryptCheck s = none) (ht : execDecstr s = .next t) : t.err = 0#2 := by
  rcases execDecstr_cases ht with ⟨e, he, -⟩ | ⟨-, hin⟩
  · rw [hcheck] at he; cases he
  · obtain ⟨c, -, rfl⟩ := decryptInput_cases hin
    exact State.setErr_err _ .ok

theorem stripOp_err (ht : stripOp s = .next t) : t.err = 0#2 := by
  obtain ⟨n, -, rfl⟩ := stripOp_cases ht
  exact State.setErr_err _ .ok

theorem execDecrypt_err (hcheck : decryptCheck s = none) (ht : execDecrypt s = .next t) : t.err = 0#2 := by
  rcases execDecrypt_cases ht with ⟨e, he, -⟩ | ⟨-, u, -, hstrip⟩
  · rw [hcheck] at he; cases he
  · exact stripOp_err hstrip

/-- R190, R193: a command that completes and fails no check puts 0 into `ERR`. -/
theorem exec_err_of_lengthCheck_eq_none (hcheck : lengthCheck i s = none) (ht : exec i s = .next t) : t.err = 0#2 := by
  cases i with
  | keysalt =>
    obtain ⟨salt, -, rfl⟩ := execKeysalt_cases ht
    exact State.setErr_err _ .ok
  | keyset | encblk | decblk | pad => cases ht; exact State.setErr_err _ .ok
  | strip => exact stripOp_err ht
  | encstr => exact encstrOp_err hcheck ht
  | decstr => exact execDecstr_err hcheck ht
  | encrypt => exact encstrOp_err (if_neg (not_not.mpr (padOp_ilen_mod_eight s))) ht
  | decrypt => exact execDecrypt_err hcheck ht
  | selftest => cases ht; exact statusAfterSelftest_err s.status _
  | reset => cases ht; simp [State.err]

/-! ### Raising twice -/

/-- R194: the checks read ILEN and CTRL, and raising an error writes neither. -/
theorem lengthCheck_raise (i : Instr) (s : State) (e : ErrCode) : lengthCheck i (s.raise e) = lengthCheck i s := by
  cases i <;> rfl

theorem statusWithErr_statusWithErr (w : Word) (e e' : ErrCode) :
    statusWithErr (statusWithErr w e) e' = statusWithErr w e' := by
  apply BitVec.eq_of_getLsbD_eq
  intro n _
  simp only [statusWithErr_getLsbD]
  split <;> rfl

/-- R194: raising an error a second time changes nothing. -/
theorem raise_raise (s : State) (e : ErrCode) : (s.raise e).raise e = s.raise e := by
  have hstatus := statusWithErr_statusWithErr s.status e e
  simp only [State.raise, State.setErr, State.setOlen, hstatus]

/-- Settles O37: such a command failed its length check, the check fails again alike, and raising its error again changes
nothing. -/
theorem failedCommandFailsAgainAlike : Obligations.FailedCommandFailsAgainAlike := by
  intro i s t ht herr
  cases hcheck : lengthCheck i s with
  | none =>
    rw [exec_err_of_lengthCheck_eq_none hcheck ht] at herr
    exact absurd herr (by decide)
  | some e =>
    have hraise : t = s.raise e := by
      rw [exec_of_lengthCheck_eq_some hcheck] at ht
      cases ht
      rfl
    calc exec i t = exec i (s.raise e) := by rw [hraise]
      _ = .next ((s.raise e).raise e) := exec_of_lengthCheck_eq_some ((lengthCheck_raise i s e).trans hcheck)
      _ = .next t := by rw [raise_raise, hraise]

end Sys2Proof.Machine
end

section
/-! Refusals, idle steps and resets (spec/70_reset_and_hazards.md R220 to R222, R232): a step is refused only where a command
reads an input byte without a value. -/
namespace Sys2Proof.Machine

variable {s : State} {i : Instr} {q : Refusal}

/-! ### Idle steps and hardware reset -/

/-- Settles O6: with nothing to take, the step answers the state it was given. -/
theorem idleEngineHoldsItsState : Obligations.IdleEngineHoldsItsState := by
  intro s hp
  rw [step, takeNext, hp]

/-- Settles O14: both answer `resetEngine` of the state with the input taken. -/
theorem hardwareResetActsAsReset : Obligations.HardwareResetActsAsReset := fun _ _ hp => step_hardwareReset hp

/-! ### Operands without a value -/

/-- R222: the input has no value exactly when one of its bytes has none. -/
theorem inputOperand_eq_none_iff : inputOperand s = none ↔ ∃ a < s.ilen.toNat, s.ibuf.read a = none := by
  simp [inputOperand, Memory.readBytes_eq_none_iff]

/-- R102, R222: KEYSALT looks at the first 16 bytes only. -/
theorem saltOperand_eq_none_iff :
    saltOperand s = none ↔ ∃ a, (a < s.ilen.toNat ∧ a < 16) ∧ s.ibuf.read a = none := by
  simp [saltOperand, Memory.readBytes_eq_none_iff]

theorem inputOperand_eq_none_of_saltOperand (h : saltOperand s = none) : inputOperand s = none := by
  obtain ⟨a, ⟨ha, -⟩, hread⟩ := saltOperand_eq_none_iff.mp h
  exact inputOperand_eq_none_iff.mpr ⟨a, ha, hread⟩

/-- R151: PAD gives a value to the bytes it appends and to no byte of the input before it. -/
theorem inputOperand_padOp_eq_none_iff (hmax : s.ilen.toNat ≤ s.cfg.maxlen) :
    inputOperand (padOp s) = none ↔ inputOperand s = none := by
  constructor
  · intro hpad
    cases hin : inputOperand s with
    | none => rfl
    | some p =>
      obtain ⟨hlen, hp⟩ := (Memory.readBytes_eq_some_iff _ _ _ _).mp hin
      rw [inputOperand_padOp hmax hlen hp] at hpad
      cases hpad
  · intro hin
    obtain ⟨a, ha, hread⟩ := inputOperand_eq_none_iff.mp hin
    have hlt : a < (padOp s).ilen.toNat := by rw [padOp_ilen_of_le hmax]; omega
    exact inputOperand_eq_none_iff.mpr ⟨a, hlt, (padOp_ibuf_outside s a (.inl ha)).trans hread⟩

/-! ### When each operation is refused -/

theorem execKeysalt_eq_refused_iff : execKeysalt s = .refused q ↔ q = .unwrittenInput ∧ saltOperand s = none := by
  unfold execKeysalt
  cases saltOperand s with
  | none => simp [eq_comm]
  | some salt => simp

/-- R132, R135: ENCSTR is refused past its check only. -/
theorem encstrOp_eq_refused_iff :
    encstrOp s = .refused q ↔ q = .unwrittenInput ∧ encryptCheck s = none ∧ inputOperand s = none := by
  unfold encstrOp encryptInput
  cases encryptCheck s with
  | some e => simp
  | none =>
    cases inputOperand s with
    | none => simp [eq_comm]
    | some p => simp

/-- R134, R135: DECSTR is refused past its checks only. -/
theorem execDecstr_eq_refused_iff :
    execDecstr s = .refused q ↔ q = .unwrittenInput ∧ decryptCheck s = none ∧ inputOperand s = none := by
  unfold execDecstr decryptInput
  cases decryptCheck s with
  | some e => simp
  | none =>
    cases inputOperand s with
    | none => simp [eq_comm]
    | some c => simp

theorem stripOp_ne_refused (h : OutputWritten s) (q : Refusal) : stripOp s ≠ .refused q := by
  obtain ⟨n, -, hnext⟩ := stripOp_next h
  simp [hnext]

/-- R156, R222: DECRYPT is refused exactly where DECSTR is, whatever OBUF held before: the output that DECSTR leaves is
written, so STRIP completes on it. -/
theorem execDecrypt_eq_refused_iff : execDecrypt s = .refused q ↔ execDecstr s = .refused q := by
  cases hcheck : decryptCheck s with
  | some e => simp only [execDecrypt, execDecstr, hcheck]
  | none =>
    cases hin : inputOperand s with
    | none => simp only [execDecrypt, execDecstr, decryptInput, hcheck, hin, andThen]
    | some c =>
      have hdecstr := execDecstr_of_input hcheck hin
      have hstrip := stripOp_ne_refused (s := (s.setOutput (decryptStream s.k c s.cbc)).setErr .ok)
        (setOutput_outputWritten s _) q
      rw [execDecrypt_of_execDecstr hcheck hdecstr, hdecstr]
      simp [hstrip]

/-- R222: a refused command met an input byte without a value. The invariant rules out that STRIP is refused, and
that ILEN wraps in PAD. -/
theorem exec_refused_cases (h : s.Inv) (hq : exec i s = .refused q) : q = .unwrittenInput ∧ inputOperand s = none := by
  cases i with
  | keysalt =>
    obtain ⟨hq, hsalt⟩ := execKeysalt_eq_refused_iff.mp hq
    exact ⟨hq, inputOperand_eq_none_of_saltOperand hsalt⟩
  | encstr =>
    obtain ⟨hq, -, hin⟩ := encstrOp_eq_refused_iff.mp hq
    exact ⟨hq, hin⟩
  | decstr =>
    obtain ⟨hq, -, hin⟩ := execDecstr_eq_refused_iff.mp hq
    exact ⟨hq, hin⟩
  | encrypt =>
    obtain ⟨hq, -, hin⟩ := encstrOp_eq_refused_iff.mp hq
    exact ⟨hq, (inputOperand_padOp_eq_none_iff h.ilenLegal).mp hin⟩
  | decrypt =>
    obtain ⟨hq, -, hin⟩ := execDecstr_eq_refused_iff.mp (execDecrypt_eq_refused_iff.mp hq)
    exact ⟨hq, hin⟩
  | strip => exact absurd hq (stripOp_ne_refused h.outputWritten q)
  | keyset | encblk | decblk | pad | selftest | reset => cases hq

/-! ### When a step is refused -/

theorem transact_refused_of_runTxn {x : Txn} (h : runTxn x s = .refused q) : transact x s = .refused q := by
  unfold runTxn at h
  split at h
  · cases h
  · cases h
  · rename_i q' hq'
    cases h
    exact hq'

/-- R232: a step is refused only when the transaction it takes runs a command that is refused. -/
theorem step_refused_cases (h : step s = .refused q) :
    ∃ x a b rest i, s.pending = .bus x a b :: rest ∧ decode x.wdata = .ok i ∧ exec i (s.taken rest a b) = .refused q := by
  cases hp : s.pending with
  | nil => rw [idleEngineHoldsItsState s hp] at h; cases h
  | cons input rest =>
    cases input with
    | hardwareReset => rw [step_hardwareReset hp] at h; cases h
    | bus x a b =>
      rw [step_bus hp] at h
      obtain ⟨i, hi, hq⟩ := transact_refused (transact_refused_of_runTxn h)
      exact ⟨x, a, b, rest, i, rfl, hi, hq⟩

/-- Settles O20: the refusal is that of a command on the state with the input taken, which keeps the invariant, ILEN
and IBUF. -/
theorem stepsStopOnlyOnUnwrittenInput : Obligations.StepsStopOnlyOnUnwrittenInput := by
  intro s q h hstep
  obtain ⟨x, a, b, rest, i, -, -, hq⟩ := step_refused_cases hstep
  obtain ⟨hreason, hin⟩ := exec_refused_cases (h.taken rest a b) hq
  exact ⟨hreason, inputOperand_eq_none_iff.mp hin⟩

/-! ### Refusal or error -/

/-- R134, R196: the code of the check that fails, for every length that fails one. -/
theorem exists_decryptCheck_eq_some (h : s.ilen.toNat % 8 ≠ 0 ∨ (s.cbc = true ∧ s.ilen.toNat < 16)) :
    ∃ e, decryptCheck s = some e ∧ e.code = if s.ilen.toNat % 4 = 0 then 2#2 else 1#2 := by
  rcases decryptCheck_cases s with ⟨hc, h4⟩ | ⟨hc, h4, -⟩ | ⟨hc, h8, -⟩ | ⟨-, h8, h16⟩
  · exact ⟨_, hc, (if_neg h4).symm⟩
  · exact ⟨_, hc, (if_pos h4).symm⟩
  · exact ⟨_, hc, (if_pos (by omega)).symm⟩
  · rcases h with hmod | ⟨hcbc, hlt⟩
    · exact absurd h8 hmod
    · exact absurd (h16 hcbc) (by omega)

/-- Settles O36: the byte leaves the operand without a value, so the command is refused unless a length check fails, whose
error is then raised first. -/
theorem commandsOnUnwrittenInputAreRefused : Obligations.CommandsOnUnwrittenInputAreRefused := by
  intro s a ha hread
  have hin : inputOperand s = none := inputOperand_eq_none_iff.mpr ⟨a, ha, hread⟩
  refine ⟨fun h16 => ?keysalt, fun h8 => ?encstr, fun h8 => ?encstrCheck, fun h8 hcbc => ?decstr, fun hfail => ?decstrCheck,
    fun hmax => ?encrypt⟩
  case keysalt => exact execKeysalt_eq_refused_iff.mpr ⟨rfl, saltOperand_eq_none_iff.mpr ⟨a, ⟨ha, h16⟩, hread⟩⟩
  case encstr => exact encstrOp_eq_refused_iff.mpr ⟨rfl, if_neg (not_not.mpr h8), hin⟩
  case encstrCheck =>
    exact ⟨_, exec_of_lengthCheck_eq_some (i := .encstr) (encryptCheck_of_mod_eight h8), State.raise_err s _, rfl⟩
  case decstr =>
    have hdecstr := execDecstr_eq_refused_iff.mpr ⟨rfl, decryptCheck_eq_none h8 hcbc, hin⟩
    exact ⟨hdecstr, execDecrypt_eq_refused_iff.mpr hdecstr⟩
  case decstrCheck =>
    obtain ⟨e, hcheck, hcode⟩ := exists_decryptCheck_eq_some hfail
    exact ⟨s.raise e, exec_of_lengthCheck_eq_some (i := .decstr) hcheck, exec_of_lengthCheck_eq_some (i := .decrypt) hcheck,
      (State.raise_err s e).trans hcode, rfl⟩
  case encrypt =>
    exact encstrOp_eq_refused_iff.mpr
      ⟨rfl, if_neg (not_not.mpr (padOp_ilen_mod_eight s)), (inputOperand_padOp_eq_none_iff hmax).mpr hin⟩

end Sys2Proof.Machine
end
